-- ==== Sys2Proof/Word.lean ====
section
/-! DEFINITION. The words of the engine: bytes, offsets, command words and the fields of a command word, at the widths
of `00_scope.md` R5 and `30_encoding.md` R51. -/

namespace Sys2Proof

/-- A byte of the buffer, of `RES` and of `STAT`: `BYTEW` = 8 (R5). -/
abbrev Byte := BitVec 8

/-- An offset or length operand, `BUFLEN` and `EOFF`: `OFFW` = 16 (R5). -/
abbrev Off := BitVec 16

/-- The value operand `v` of `PACK` and `STF`: `VALW` = 16 (R5). -/
abbrev Val := BitVec 16

/-- A command word: `CMDW` = 64 (R5, R50). -/
abbrev CmdWord := BitVec 64

/-- The field `S`, the shift of a descriptor: 3 bits (R51). -/
abbrev Shift := BitVec 3

/-- The field `W`, the literal width of a descriptor: 4 bits (R51). -/
abbrev Width := BitVec 4

end Sys2Proof
end

