-- ==== Sys2Proof/Machine/Operands.lean ====
section
/-! DEFINITION. The pure operand functions: descriptor legality, the bit-field functions `fmask`, `unpack`, `pack`
(`41_bitfield.md` R90 to R92), the width test of `FieldOutOfRange` (R100) and the range tests on offsets
(`20_memory.md` R34, `40_checksum.md` R80). Sums of offsets are natural numbers and never wrap (`00_scope.md` R8). -/

namespace Sys2Proof.Machine

/-- A descriptor `(s, w)` is legal when `1 <= w <= 8` and `s + w <= 8` (R56, R90). -/
def legalDescriptor (s : Shift) (w : Width) : Bool :=
  decide (1 ≤ w.toNat ∧ w.toNat ≤ 8 ∧ s.toNat + w.toNat ≤ 8)

/-- `2^w - 1` as a byte: ones in the low `w` bits (R91). -/
def lowMask (w : Width) : Byte := BitVec.ofNat 8 (2 ^ w.toNat - 1)

/-- `fmask(s, w) = (2^w - 1) << s` (R90). -/
def fmask (s : Shift) (w : Width) : Byte := lowMask w <<< s.toNat

/-- `unpack(b, s, w) = (b >> s) & (2^w - 1)` (R91). -/
def unpack (b : Byte) (s : Shift) (w : Width) : Byte := (b >>> s.toNat) &&& lowMask w

/-- `pack(b, s, w, v) = (b & ~fmask(s, w)) | (v << s)` (R92). It stands for a field value only when `v < 2^w`: both
commands test that first (R100). -/
def pack (b : Byte) (s : Shift) (w : Width) (v : Val) : Byte :=
  (b &&& ~~~ fmask s w) ||| (v.setWidth 8 <<< s.toNat)

/-- `v < 2^w`, over all 16 bits of `v` (R100). -/
def fitsWidth (v : Val) (w : Width) : Bool := decide (v.toNat < 2 ^ w.toNat)

/-- Two descriptors are disjoint when `s1 + w1 <= s2` or `s2 + w2 <= s1` (R90). -/
def disjointDescriptors (s₁ : Shift) (w₁ : Width) (s₂ : Shift) (w₂ : Width) : Bool :=
  decide (s₁.toNat + w₁.toNat ≤ s₂.toNat ∨ s₂.toNat + w₂.toNat ≤ s₁.toNat)

/-- `start <= at < start + len`: the stored checksum byte lies inside its own body range (R80). -/
def insideRange (pos start len : Off) : Bool :=
  decide (start.toNat ≤ pos.toNat ∧ pos.toNat < start.toNat + len.toNat)

/-- A range is in bounds when `start + len <= BUFLEN` (R34). -/
def rangeInBounds (buflen start len : Off) : Bool := decide (start.toNat + len.toNat ≤ buflen.toNat)

/-- A single offset `o` is in bounds when `o < BUFLEN` (R34). -/
def offInBounds (buflen o : Off) : Bool := decide (o.toNat < buflen.toNat)

end Sys2Proof.Machine
end

