-- ==== Sys2Proof/Syntax.lean ====
section
/-! DEFINITION. The seven commands of `CSE-1`, one constructor per row of spec/opcode_table.json
(`30_encoding.md` R57, R59), operands in the table's order. -/

namespace Sys2Proof

/-- A command (R57). Every operand has the width of its field, so only the descriptor `(s, w)` can be ill-formed (R56). -/
inductive Instr where
  /-- `CSUM start, len` (`40_checksum.md` R77). -/
  | csum (start len : Off)
  /-- `CSVER at, start, len` (`40_checksum.md` R78). -/
  | csver (pos start len : Off)
  /-- `CSPUT at, start, len` (`40_checksum.md` R79). -/
  | csput (pos start len : Off)
  /-- `UNPK b, s, w` (`41_bitfield.md` R96). -/
  | unpk (b : Byte) (s : Shift) (w : Width)
  /-- `PACK b, s, w, v` (`41_bitfield.md` R97). -/
  | pack (b : Byte) (s : Shift) (w : Width) (v : Val)
  /-- `LDF off, s, w` (`41_bitfield.md` R98). -/
  | ldf (off : Off) (s : Shift) (w : Width)
  /-- `STF off, s, w, v` (`41_bitfield.md` R99). -/
  | stf (off : Off) (s : Shift) (w : Width) (v : Val)
  deriving DecidableEq, Repr

end Sys2Proof
end

