-- ==== Sys2Proof/WellFormed.lean ====
section
/-! DEFINITION. Which terms of `Instr` are commands: those whose descriptor is legal (`30_encoding.md` R56, R58 (e)). -/

namespace Sys2Proof

open Sys2Proof.Machine

/-- A command is well formed when its field descriptor, if it has one, is legal (R56). -/
def Instr.wellFormed : Instr → Bool
  | .csum _ _ => true
  | .csver _ _ _ => true
  | .csput _ _ _ => true
  | .unpk _ s w => legalDescriptor s w
  | .pack _ s w _ => legalDescriptor s w
  | .ldf _ s w => legalDescriptor s w
  | .stf _ s w _ => legalDescriptor s w

end Sys2Proof
end

