-- ==== Sys2Proof/Decode.lean ====
section
/-! DEFINITION. Decoding a command word and encoding a command (`30_encoding.md` R50 to R59). A command word is presented
whole, so it has no byte order (R50); decoding is total and every word that is not one of the seven commands is rejected
by the case of R58 that makes it illegal. -/

namespace Sys2Proof

open Sys2Proof.Machine

/-- Why a word is illegal by spelling: the cases (a) to (h) of R58. The engine reports all of them alike. -/
inductive IllegalWord where
  /-- (a) `OP` is 0x0 or 0x8 to 0xF. -/
  | opcode
  /-- (b) `Z` is not 0. -/
  | reservedBits
  /-- (c) `OP` is 1, 2 or 3 and `S` or `W` is not 0. -/
  | rangeWithDescriptor
  /-- (d) `OP` is 1 and `A` is not 0. -/
  | csumWithAt
  /-- (e) `OP` is 4 to 7 and `(S, W)` is not a legal descriptor. -/
  | descriptor
  /-- (f) `OP` is 4 to 7 and `C` is not 0. -/
  | thirdOperand
  /-- (g) `OP` is 4 or 6 and `B` is not 0. -/
  | secondOperand
  /-- (h) `OP` is 4 or 5 and `A[15:8]` is not 0. -/
  | operandHighByte
  deriving DecidableEq, Repr

/-- `OP`, bits 63:60 (R51). -/
def fieldOP (cw : CmdWord) : BitVec 4 := cw.extractLsb' 60 4

/-- `S`, bits 59:57 (R51). -/
def fieldS (cw : CmdWord) : Shift := cw.extractLsb' 57 3

/-- `W`, bits 56:53 (R51). -/
def fieldW (cw : CmdWord) : Width := cw.extractLsb' 53 4

/-- `Z`, bits 52:48 (R51). -/
def fieldZ (cw : CmdWord) : BitVec 5 := cw.extractLsb' 48 5

/-- `A`, bits 47:32 (R51). -/
def fieldA (cw : CmdWord) : Off := cw.extractLsb' 32 16

/-- `B`, bits 31:16 (R51). -/
def fieldB (cw : CmdWord) : BitVec 16 := cw.extractLsb' 16 16

/-- `C`, bits 15:0 (R51). -/
def fieldC (cw : CmdWord) : Off := cw.extractLsb' 0 16

/-- `A[7:0]`, bits 39:32: the operand byte of format F (R53). -/
def fieldALow (cw : CmdWord) : Byte := cw.extractLsb' 32 8

/-- `A[15:8]`, bits 47:40: must be zero in format F (R53). -/
def fieldAHigh (cw : CmdWord) : Byte := cw.extractLsb' 40 8

/-- Format R: `CSUM`, `CSVER`, `CSPUT`, with `OP` 1, 2 and 3 (R52, R57, R58 (c), (d)). -/
def decodeRange (cw : CmdWord) : Except IllegalWord Instr :=
  if fieldS cw ≠ 0 ∨ fieldW cw ≠ 0 then .error .rangeWithDescriptor
  else if fieldOP cw = 1 then
    if fieldA cw ≠ 0 then .error .csumWithAt else .ok (.csum (fieldB cw) (fieldC cw))
  else if fieldOP cw = 2 then .ok (.csver (fieldA cw) (fieldB cw) (fieldC cw))
  else .ok (.csput (fieldA cw) (fieldB cw) (fieldC cw))

/-- Format F: `UNPK`, `PACK`, with `OP` 4 and 5 (R53, R57, R58 (g), (h)). -/
def decodeOperandField (cw : CmdWord) : Except IllegalWord Instr :=
  if fieldAHigh cw ≠ 0 then .error .operandHighByte
  else if fieldOP cw = 4 then
    if fieldB cw ≠ 0 then .error .secondOperand
    else .ok (.unpk (fieldALow cw) (fieldS cw) (fieldW cw))
  else .ok (.pack (fieldALow cw) (fieldS cw) (fieldW cw) (fieldB cw))

/-- Format M: `LDF`, `STF`, with `OP` 6 and 7 (R54, R57, R58 (g)). -/
def decodeBufferField (cw : CmdWord) : Except IllegalWord Instr :=
  if fieldOP cw = 6 then
    if fieldB cw ≠ 0 then .error .secondOperand
    else .ok (.ldf (fieldA cw) (fieldS cw) (fieldW cw))
  else .ok (.stf (fieldA cw) (fieldS cw) (fieldW cw) (fieldB cw))

/-- The decoder (R57, R58, R59): total on every 64-bit word. -/
def decode (cw : CmdWord) : Except IllegalWord Instr :=
  if fieldOP cw = 0 ∨ 8 ≤ (fieldOP cw).toNat then .error .opcode
  else if fieldZ cw ≠ 0 then .error .reservedBits
  else if (fieldOP cw).toNat < 4 then decodeRange cw
  else if legalDescriptor (fieldS cw) (fieldW cw) = false then .error .descriptor
  else if fieldC cw ≠ 0 then .error .thirdOperand
  else if (fieldOP cw).toNat < 6 then decodeOperandField cw
  else decodeBufferField cw

/-- `cw = OP ++ S ++ W ++ Z ++ A ++ B ++ C` (R51). -/
def wordOfFields (op : BitVec 4) (s : Shift) (w : Width) (z : BitVec 5) (a b c : BitVec 16) : CmdWord :=
  op ++ s ++ w ++ z ++ a ++ b ++ c

/-- The encoder: the word of a command, with the must-be-zero fields zero (R52 to R54, R57, R59). -/
def encode : Instr → CmdWord
  | .csum start len => wordOfFields 1 0 0 0 0 start len
  | .csver pos start len => wordOfFields 2 0 0 0 pos start len
  | .csput pos start len => wordOfFields 3 0 0 0 pos start len
  | .unpk b s w => wordOfFields 4 s w 0 (b.setWidth 16) 0 0
  | .pack b s w v => wordOfFields 5 s w 0 (b.setWidth 16) v 0
  | .ldf off s w => wordOfFields 6 s w 0 off 0 0
  | .stf off s w v => wordOfFields 7 s w 0 off v 0

/-- The `match` column of R57's second table. -/
def tableMatch : Instr → CmdWord
  | .csum _ _ => 0x1000000000000000
  | .csver _ _ _ => 0x2000000000000000
  | .csput _ _ _ => 0x3000000000000000
  | .unpk _ _ _ => 0x4000000000000000
  | .pack _ _ _ _ => 0x5000000000000000
  | .ldf _ _ _ => 0x6000000000000000
  | .stf _ _ _ _ => 0x7000000000000000

/-- The `mask` column of R57's second table. -/
def tableMask : Instr → CmdWord
  | .csum _ _ => 0xFFFFFFFF00000000
  | .csver _ _ _ => 0xFFFF000000000000
  | .csput _ _ _ => 0xFFFF000000000000
  | .unpk _ _ _ => 0xF01FFF00FFFFFFFF
  | .pack _ _ _ _ => 0xF01FFF000000FFFF
  | .ldf _ _ _ => 0xF01F0000FFFFFFFF
  | .stf _ _ _ _ => 0xF01F00000000FFFF

/-- The command word whose bits, numbered as spec/opcode_table.json numbers them, are the low `nbits` bits of `w`
(bit 0 of the one 64-bit word is its least significant bit, R50, R51, log 12). -/
def tableWord (nbits w : Nat) : CmdWord := BitVec.ofNat 64 (w % 2 ^ nbits)

/-- The command the decoder reads from a word given in the table's numbering. -/
def decodeTableWord (nbits w : Nat) : Option Instr :=
  match decode (tableWord nbits w) with
  | .ok i => some i
  | .error _ => none

end Sys2Proof
end

