-- ==== Sys2Proof/Config.lean ====
section
/-! DEFINITION. What one engine instance fixes: the open checksum algorithm `ALG` (`00_scope.md` R7, `40_checksum.md`
R71), which is left free, and the sizes of the wire layout that the spec gives (`00_scope.md` R5, R6). -/

namespace Sys2Proof

/-- An `ALG` is a record of four components (R71): the positive accumulator width `ACCW`, the start value `INIT`, the
total function `STEP` from an accumulator value and a byte, and the total function `FIN` to a byte. -/
structure Alg where
  accw : Nat
  accw_pos : 0 < accw
  init : BitVec accw
  step : BitVec accw → Byte → BitVec accw
  fin : BitVec accw → Byte

namespace Config

/-- `ACCW` less one, so that `ACCW` is positive (R71). Free: the spec leaves `ALG` open (R7, log 1). -/
opaque accwLessOne : Nat

/-- `ACCW` of this engine's `ALG` (R71). -/
def accw : Nat := accwLessOne + 1

/-- `INIT` of this engine's `ALG` (R71). Free (R7, log 1). -/
opaque algInit : BitVec accw

/-- `STEP` of this engine's `ALG` (R71). Free (R7, log 1). -/
opaque algStep : BitVec accw → Byte → BitVec accw

/-- `FIN` of this engine's `ALG` (R71). Free, and not limited to 7 bits (R7, R73, log 1). -/
opaque algFin : BitVec accw → Byte

/-- The one `ALG` of this engine, for its whole life (`10_state.md` R17). -/
def alg : Alg where
  accw := accw
  accw_pos := Nat.succ_pos accwLessOne
  init := algInit
  step := algStep
  fin := algFin

/-- `MAXBUF`, the greatest legal `BUFLEN` (R5). -/
def maxBuf : Nat := 65535

/-- `TONEMAP_LEN` (R6). -/
def toneMapLen : Nat := 19

/-- `CSUM_LEN` (R6). -/
def csumLen : Nat := 1

/-- `SRC_LEN`: Control 28, DCO 12, DCF 20, DCA 15, LFO 11 bytes (R6). -/
def srcLen : Nat := 28 + 12 + 20 + 15 + 11

/-- `SRC_MIN` (R6). -/
def srcMin : Nat := 1

/-- `SRC_MAX` (R6). -/
def srcMax : Nat := 6

/-- `TRAILER_LEN` (R6). -/
def trailerLen : Nat := 1

end Config

end Sys2Proof
end

