-- ==== Sys2Proof/Machine/State.lean ====
section
/-! DEFINITION. The state of the engine (`10_state.md` R11 to R16), the host events it meets (`60_exceptions.md` R126, R128 to
R131, `70_reset_and_hazards.md` R140), the class codes of a report (R110) and the state after reset (R23). -/

namespace Sys2Proof.Machine

/-- The buffer `BUF` as a list of (offset, byte) pairs, kept in one canonical form: offsets strictly rising, no pair
equal to what an unlisted offset reads as (Machine/Ops.lean, log 2). -/
abbrev Memory := List Host.Cell

/-- The class codes of `STAT.CLASS` (R110). The engine reports `ok`, `checksumMismatch`, `truncatedInput`,
`fieldOutOfRange` and `illegalCommand`; the others keep their numbers for components out of scope (R112). -/
inductive ReportClass where
  | ok
  | malformedFrame
  | checksumMismatch
  | invalidSourceCount
  | truncatedInput
  | fieldOutOfRange
  | reserved
  | illegalCommand
  deriving DecidableEq, Repr

/-- The two severities of the error classes (R110, R111). -/
inductive Severity where
  | fatal
  | recoverable
  deriving DecidableEq, Repr

/-- The registers of `10_state.md` section 4 that the host can read at any time between steps (R126). The fifth row, the
bytes `BUF[o]`, is read by the host at `Detach` only, as its "read by" column says. -/
inductive HostRegister where
  | buflen
  | res
  | stat
  | eoff
  deriving DecidableEq, Repr

/-- What the host does to the engine between steps (R131, and R126 for the reading of a register). -/
inductive HostEvent where
  /-- `Reset` (R140). -/
  | reset
  /-- `Attach(bytes)` (R128). -/
  | attach (bytes : List Byte)
  /-- `Detach` (R129). -/
  | detach
  /-- `Issue(cw)` (R130). -/
  | issue (cw : CmdWord)
  /-- `Observe` (R130). -/
  | observe
  /-- The host reads one register (R126). -/
  | readRegister (r : HostRegister)
  deriving DecidableEq, Repr

/-- What the host gets from the engine. -/
inductive HostReply where
  /-- The bytes `BUF[0 .. BUFLEN-1]` taken by `Detach` (R129). -/
  | bytes (bytes : List Byte)
  /-- `RES`, `STAT`, `EOFF` as read by `Observe` (R130). -/
  | report (res stat : Byte) (eoff : Off)
  /-- One register as read by the host (R126), 8-bit ones zero-extended (log 20). -/
  | register (r : HostRegister) (value : Off)
  deriving DecidableEq, Repr

/-- The machine: the engine's five pieces of state, whether a session is open, and the host's side of the interface. -/
structure State where
  /-- `BUF` (R11). -/
  buf : Memory
  /-- `BUFLEN` (R12). -/
  buflen : Off
  /-- `RES` (R13). -/
  res : Byte
  /-- `STAT` (R14). -/
  stat : Byte
  /-- `EOFF` (R15). -/
  eoff : Off
  /-- A session is open: from `Attach` to the next `Detach` or `Reset` (R128, log 5). -/
  sessionOpen : Bool
  /-- Host events not yet taken, first to come first (the model's own field, log 3). -/
  events : List HostEvent
  /-- What the host has been handed, oldest first (the model's own field, log 3). -/
  replies : List HostReply
  deriving DecidableEq, Repr

/-- The faults that stop the machine: NONE. Every command ends with a report and the engine accepts the next one
(R116, R119; `10_state.md` R10), so nobody raises a fault. Safe: no behaviour is cut off by one. -/
inductive Fault where
  deriving DecidableEq, Repr

/-- What the model gives no meaning. -/
inductive Refusal where
  /-- Raised by an arm of `exec` whose instruction has no meaning yet; no arm does. Safe. -/
  | notModelled (mnemonic : String)
  /-- Raised by the host event `Attach` while a session is open: "no meaning is given" (R131, `93` X3, log 6). Safe. -/
  | attachDuringSession
  /-- Raised by the host event `Attach` of more than 65535 bytes: it "cannot be attached" (R128, `93` X3, log 6). Safe. -/
  | attachTooLong
  deriving DecidableEq, Repr

/-- The state after `Reset`: no buffer, `RES` = 0, `STAT` = 0, `EOFF` = 0 (R23, R140); no session (R128); the host has
done nothing yet (log 3). -/
def State.reset : State where
  buf := []
  buflen := 0
  res := 0
  stat := 0
  eoff := 0
  sessionOpen := false
  events := []
  replies := []

end Sys2Proof.Machine
end

