-- ==== Sys2Proof/Machine/Flags.lean ====
section
/-! DEFINITION. The engine has no flags and no condition codes (`10_state.md` R21). What stands in their place is the
class code of `STAT` (`60_exceptions.md` R110) and the severity of a class (R110, R111). -/

namespace Sys2Proof.Machine

/-- The class codes of R110. -/
def ReportClass.code : ReportClass → BitVec 3
  | .ok => 0
  | .malformedFrame => 1
  | .checksumMismatch => 2
  | .invalidSourceCount => 3
  | .truncatedInput => 4
  | .fieldOutOfRange => 5
  | .reserved => 6
  | .illegalCommand => 7

/-- The value of `STAT` for a class: `CLASS` in bits 2:0, bits 7:3 zero (`10_state.md` R14). -/
def ReportClass.stat (c : ReportClass) : Byte := c.code.setWidth 8

/-- The severity of a class (R110, R111); `ok` and the reserved code have none. -/
def ReportClass.severity : ReportClass → Option Severity
  | .ok => none
  | .malformedFrame => some .fatal
  | .checksumMismatch => some .recoverable
  | .invalidSourceCount => some .fatal
  | .truncatedInput => some .fatal
  | .fieldOutOfRange => some .fatal
  | .reserved => none
  | .illegalCommand => some .fatal

/-- The classes the engine reports (R112). -/
def ReportClass.reported : ReportClass → Bool
  | .ok => true
  | .malformedFrame => false
  | .checksumMismatch => true
  | .invalidSourceCount => false
  | .truncatedInput => true
  | .fieldOutOfRange => true
  | .reserved => false
  | .illegalCommand => true

/-- `STAT.CLASS`, bits 2:0 of `STAT` (R14). -/
def State.classField (s : State) : BitVec 3 := s.stat.setWidth 3

end Sys2Proof.Machine
end

