-- ==== Sys2Proof/Machine/Ops.lean ====
section
/-! DEFINITION. The shared operations: reading and writing one byte of the buffer (`20_memory.md` R31, R32), the reduction
`compute` (`40_checksum.md` R72), and the two ways a command ends, `done` and `raise` (`60_exceptions.md` R113, R114).
Taking an error is one of these: the engine has no trap, so there is no entry to model and no return beside it (R119,
R121). -/

namespace Sys2Proof.Machine

/-- What an offset with no pair reads as. Every byte below `BUFLEN` is set by `Attach`, so this only says that zero bytes
are not listed; offsets from `BUFLEN` up are never read (R34, log 2). -/
def Memory.unlisted : Byte := 0

/-- The byte at an offset (R31). -/
def Memory.read : Memory → Nat → Byte
  | [], _ => Memory.unlisted
  | (a, b) :: m, o => if a = o then b else Memory.read m o

/-- Put a pair at its place in rising order; a byte that an unlisted offset reads as is left out. -/
def Memory.insertCell : Memory → Nat → Byte → Memory
  | [], o, b => if b = Memory.unlisted then [] else [(o, b)]
  | (a, c) :: m, o, b =>
    if a < o then (a, c) :: Memory.insertCell m o b
    else if b = Memory.unlisted then (a, c) :: m
    else (o, b) :: (a, c) :: m

/-- Write one byte (R32): the old pair of the offset goes, the new one takes its place. -/
def Memory.write (m : Memory) (o : Nat) (b : Byte) : Memory :=
  Memory.insertCell (m.filter fun c => decide (c.1 ≠ o)) o b

/-- The pairs of a byte sequence that starts at offset `o` (R128). -/
def Memory.ofBytes : Nat → List Byte → Memory
  | _, [] => []
  | o, b :: bs =>
    if b = Memory.unlisted then Memory.ofBytes (o + 1) bs else (o, b) :: Memory.ofBytes (o + 1) bs

/-- The canonical form: offsets strictly rising, no pair equal to what an unlisted offset reads as. -/
def Memory.wf : Memory → Bool
  | [] => true
  | (a, b) :: m => decide (b ≠ Memory.unlisted) && (m.all fun c => decide (a < c.1)) && Memory.wf m

/-- `MemRead(o, 1)` (R31): every caller has made the bounds check first (R34). -/
def State.memRead (s : State) (o : Nat) : Byte := s.buf.read o

/-- `MemWrite(o, 1, b)` (R32): `BUF[o]` becomes `b`, every other byte and `BUFLEN` stay. -/
def State.memWrite (s : State) (o : Nat) (b : Byte) : State := { s with buf := s.buf.write o b }

/-- `BUF[start .. start+len-1]`, one `MemRead` a byte in ascending order (R33, R72). -/
def State.rangeBytes (s : State) (start len : Nat) : List Byte :=
  (List.range len).map fun i => s.memRead (start + i)

/-- The whole of `BUF`, `BUF[0 .. BUFLEN-1]` (R11). -/
def State.bufBytes (s : State) : List Byte := s.rangeBytes 0 s.buflen.toNat

/-- `compute(q)`: fold `STEP` over the bytes from `INIT` in ascending order, then `FIN` (R72). The accumulator is local to
the fold (`10_state.md` R19). -/
def compute (alg : Alg) (q : List Byte) : Byte := alg.fin (q.foldl alg.step alg.init)

/-- Every command writes all three response registers at its end (`10_state.md` R13 to R15). -/
def State.respond (s : State) (r : Byte) (c : ReportClass) (offset : Off) : State :=
  { s with res := r, stat := c.stat, eoff := offset }

/-- `done(r)`: `RES <- r; STAT <- 0; EOFF <- 0` (R113). -/
def State.done (s : State) (r : Byte) : State := s.respond r .ok 0

/-- `raise Class(offset)`: `RES <- 0; STAT <- code(Class); EOFF <- offset`, and nothing else (R114). The
`ChecksumMismatch` end of `CSVER` has the same shape (R78). -/
def State.raise (s : State) (c : ReportClass) (offset : Off) : State := s.respond 0 c offset

/-- Attach a byte sequence: `BUF <- bytes; BUFLEN <- n`, and the session opens (R128). -/
def State.attached (s : State) (bytes : List Byte) : State :=
  { s with buf := Memory.ofBytes 0 bytes, buflen := BitVec.ofNat 16 bytes.length, sessionOpen := true }

/-- No buffer any more: `BUFLEN <- 0`, `BUF` empty, and the session closes (R129, R140). -/
def State.unattached (s : State) : State := { s with buf := [], buflen := 0, sessionOpen := false }

/-- The value of a register that the host can read (`60_exceptions.md` R126), 8-bit ones zero-extended (log 20). -/
def State.registerValue (s : State) : HostRegister → Off
  | .buflen => s.buflen
  | .res => s.res.setWidth 16
  | .stat => s.stat.setWidth 16
  | .eoff => s.eoff

/-- Hand the host a reply. -/
def State.reply (s : State) (r : HostReply) : State := { s with replies := s.replies ++ [r] }

/-- The host's events still to come. -/
def State.withEvents (s : State) (es : List HostEvent) : State := { s with events := es }

end Sys2Proof.Machine
end

