-- ==== Sys2Proof/Machine/Bitfield.lean ====
section
/-! DEFINITION. The bit-field commands `UNPK`, `PACK`, `LDF`, `STF` (`41_bitfield.md` R96 to R100). A term whose descriptor
is illegal spells an illegal word, and its outcome is that word's (`30_encoding.md` R58 (e), log 8). -/

namespace Sys2Proof.Machine

/-- Go on only with a legal descriptor; else `raise IllegalCommand(0)` (R56, R58 (e)), the first test of all four commands
(`60_exceptions.md` R117). -/
def withDescriptor (s : Shift) (w : Width) (σ : State) (go : State) : State :=
  if legalDescriptor s w then go else σ.raise .illegalCommand 0

/-- `UNPK b, s, w` (R96): no buffer is touched or needed. -/
def execUnpk (b : Byte) (s : Shift) (w : Width) (σ : State) : Host.Outcome State Fault Refusal :=
  .next (withDescriptor s w σ (σ.done (unpack b s w)))

/-- `PACK b, s, w, v` (R97): `FieldOutOfRange(0)` when `v >= 2^w` (R100). -/
def execPack (b : Byte) (s : Shift) (w : Width) (v : Val) (σ : State) : Host.Outcome State Fault Refusal :=
  .next (withDescriptor s w σ
    (if fitsWidth v w then σ.done (pack b s w v) else σ.raise .fieldOutOfRange 0))

/-- `LDF off, s, w` (R98). -/
def execLdf (off : Off) (s : Shift) (w : Width) (σ : State) : Host.Outcome State Fault Refusal :=
  .next (withDescriptor s w σ
    (if offInBounds σ.buflen off then σ.done (unpack (σ.memRead off.toNat) s w)
     else σ.raise .truncatedInput σ.buflen))

/-- `STF off, s, w, v` (R99): `FieldOutOfRange(off)` is tested before the bounds (R117). -/
def execStf (off : Off) (s : Shift) (w : Width) (v : Val) (σ : State) : Host.Outcome State Fault Refusal :=
  .next (withDescriptor s w σ
    (if fitsWidth v w then
      if offInBounds σ.buflen off then
        let n := pack (σ.memRead off.toNat) s w v
        (σ.memWrite off.toNat n).done n
      else σ.raise .truncatedInput σ.buflen
    else σ.raise .fieldOutOfRange off))

end Sys2Proof.Machine
end

