-- ==== Sys2Proof/Machine/Checksum.lean ====
section
/-! DEFINITION. The checksum commands `CSUM`, `CSVER`, `CSPUT` (`40_checksum.md` R77 to R80). Each is written once for an
arbitrary `ALG`, as the spec writes it (R70), and executed with this engine's own. -/

namespace Sys2Proof.Machine

/-- `CSUM start, len` (R77). -/
def csumBy (alg : Alg) (start len : Off) (s : State) : State :=
  if rangeInBounds s.buflen start len then
    s.done (compute alg (s.rangeBytes start.toNat len.toNat))
  else s.raise .truncatedInput s.buflen

/-- `CSVER at, start, len` (R78, R80): compares all 8 bits; a mismatch is a report, and `BUF` is never written. -/
def csverBy (alg : Alg) (pos start len : Off) (s : State) : State :=
  if insideRange pos start len then s.raise .illegalCommand 0
  else if offInBounds s.buflen pos && rangeInBounds s.buflen start len then
    if compute alg (s.rangeBytes start.toNat len.toNat) = s.memRead pos.toNat then s.done 1
    else s.raise .checksumMismatch pos
  else s.raise .truncatedInput s.buflen

/-- `CSPUT at, start, len` (R79, R80): the one write comes after every read. -/
def csputBy (alg : Alg) (pos start len : Off) (s : State) : State :=
  if insideRange pos start len then s.raise .illegalCommand 0
  else if offInBounds s.buflen pos && rangeInBounds s.buflen start len then
    let c := compute alg (s.rangeBytes start.toNat len.toNat)
    (s.memWrite pos.toNat c).done c
  else s.raise .truncatedInput s.buflen

/-- `CSUM` with this engine's `ALG`. -/
def execCsum (start len : Off) (s : State) : Host.Outcome State Fault Refusal :=
  .next (csumBy Config.alg start len s)

/-- `CSVER` with this engine's `ALG`. -/
def execCsver (pos start len : Off) (s : State) : Host.Outcome State Fault Refusal :=
  .next (csverBy Config.alg pos start len s)

/-- `CSPUT` with this engine's `ALG`. -/
def execCsput (pos start len : Off) (s : State) : Host.Outcome State Fault Refusal :=
  .next (csputBy Config.alg pos start len s)

end Sys2Proof.Machine
end

