-- ==== Sys2Proof/Machine/Dispatch.lean ====
section
/-! DEFINITION. One arm per command of `CSE-1` (`30_encoding.md` R57). -/

namespace Sys2Proof.Machine

open Sys2Proof

def exec (i : Instr) (s : State) : Host.Outcome State Fault Refusal :=
  match i with
  | .csum start len => Sys2Proof.Machine.execCsum start len s
  | .csver pos start len => Sys2Proof.Machine.execCsver pos start len s
  | .csput pos start len => Sys2Proof.Machine.execCsput pos start len s
  | .unpk b sh w => Sys2Proof.Machine.execUnpk b sh w s
  | .pack b sh w v => Sys2Proof.Machine.execPack b sh w v s
  | .ldf off sh w => Sys2Proof.Machine.execLdf off sh w s
  | .stf off sh w v => Sys2Proof.Machine.execStf off sh w v s

end Sys2Proof.Machine
end

