-- ==== Sys2Proof/Machine/HostEvents.lean ====
section
/-! DEFINITION. What the host does to the engine, one event per step, between commands (`60_exceptions.md` R126, R128 to
R131, `70_reset_and_hazards.md` R140). Each is given the state from which the event has been taken. -/

namespace Sys2Proof.Machine

/-- `Issue(cw)` (R130): the engine runs the command the word spells; an illegal word does `raise IllegalCommand(0)`
without touching `BUF` (`30_encoding.md` R58). -/
def issueWord (cw : CmdWord) (s : State) : Host.Outcome State Fault Refusal :=
  match decode cw with
  | .ok i => exec i s
  | .error _ => .next (s.raise .illegalCommand 0)

/-- `Attach(bytes)` (R128): only when no session is open, and at most `MAXBUF` bytes; the rest has no meaning (R131). -/
def attachBuffer (bytes : List Byte) (s : State) : Host.Outcome State Fault Refusal :=
  if s.sessionOpen then .refused .attachDuringSession
  else if bytes.length ≤ Config.maxBuf then .next (s.attached bytes)
  else .refused .attachTooLong

/-- `Detach` (R129): the host takes `BUF[0 .. BUFLEN-1]` as it stands, then nothing is attached. -/
def detachBuffer (s : State) : State := (s.unattached).reply (.bytes s.bufBytes)

/-- `Observe` (R130): the host reads `RES`, `STAT`, `EOFF`; the engine does not change. The reply is the model's form of a
reading (log 3). -/
def observeReport (s : State) : State := s.reply (.report s.res s.stat s.eoff)

/-- The host reads one register, `BUFLEN` among them (R126, `10_state.md` section 4: at any time between steps); the engine
does not change. An event of its own with its own reply is the model's form of it (logs 3, 20). -/
def readRegister (r : HostRegister) (s : State) : State := s.reply (.register r (s.registerValue r))

/-- `Reset` (R140): the engine is as R23 says; what is the host's (its coming events, what it was handed) stays (log 14). -/
def resetEngine (s : State) : State :=
  { State.reset with events := s.events, replies := s.replies }

/-- What happens at one host event. -/
def runEvent (e : HostEvent) (s : State) : Host.Outcome State Fault Refusal :=
  match e with
  | .reset => .next (resetEngine s)
  | .attach bytes => attachBuffer bytes s
  | .detach => .next (detachBuffer s)
  | .issue cw => issueWord cw s
  | .observe => .next (observeReport s)
  | .readRegister r => .next (readRegister r s)

/-- Take the host's next event. With none to come the engine waits and nothing changes (log 4). -/
def takeEvent (s : State) : Host.Outcome State Fault Refusal :=
  match s.events with
  | [] => .next s
  | e :: es => runEvent e (s.withEvents es)

/-- Let the host issue a word next, before everything else it is about to do. -/
def State.issueNext (s : State) (cw : CmdWord) : State := s.withEvents (.issue cw :: s.events)

end Sys2Proof.Machine
end

