-- ==== Sys2Proof/Machine/Step.lean ====
section
/-! DEFINITION. The step: the host's next event (`10_state.md` R10, `60_exceptions.md` R130). The engine has no program
counter and does not fetch (R20), so the next instruction is the word of the next `Issue`. -/

namespace Sys2Proof.Machine

/-- One step of the engine and its host. -/
def step (s : State) : Host.Outcome State Fault Refusal := takeEvent s

/-- The state in which the very next step runs the word given in the opcode table's numbering (logs 7, 12). -/
def State.withFetchWord (s : State) (nbits w : Nat) : State := s.issueNext (tableWord nbits w)

end Sys2Proof.Machine
end

