-- ==== Sys2Proof/Machine/Algorithms.lean ====
section
/-! DEFINITION. The three named candidate values of the parameter `ALG` (`40_checksum.md` R74 to R76) and the two named
properties an `ALG` may have (R73). No command uses a candidate: the engine's own `ALG` stays open (R7, log 10). -/

namespace Sys2Proof.Machine

/-- `STEP(acc, b) = (acc + b[6:0]) mod 128`, of `ALG_SUM7_2C` and `ALG_SUM7_A5` (R74, R76). -/
def sum7Step (acc : BitVec 7) (b : Byte) : BitVec 7 :=
  BitVec.ofNat 7 ((acc.toNat + (b.setWidth 7).toNat) % 128)

/-- `STEP(acc, b) = acc ^ b[6:0]`, of `ALG_XOR7` (R75). -/
def xor7Step (acc : BitVec 7) (b : Byte) : BitVec 7 := acc ^^^ b.setWidth 7

/-- `FIN(acc) = zext_8((128 - acc) mod 128)`, of `ALG_SUM7_2C` (R74). -/
def negate7Fin (acc : BitVec 7) : Byte := BitVec.ofNat 8 ((128 - acc.toNat) % 128)

/-- `FIN(acc) = zext_8(acc)`, of `ALG_XOR7` and `ALG_SUM7_A5` (R75, R76). -/
def extend7Fin (acc : BitVec 7) : Byte := acc.setWidth 8

/-- `ALG_SUM7_2C` (R74). -/
def algSum7TwosComplement : Alg where
  accw := 7
  accw_pos := by decide
  init := (0 : BitVec 7)
  step := sum7Step
  fin := negate7Fin

/-- `ALG_XOR7` (R75). -/
def algXor7 : Alg where
  accw := 7
  accw_pos := by decide
  init := (0 : BitVec 7)
  step := xor7Step
  fin := extend7Fin

/-- `ALG_SUM7_A5`, whose `INIT` is 0x25 (R76). -/
def algSum7A5 : Alg where
  accw := 7
  accw_pos := by decide
  init := (0x25 : BitVec 7)
  step := sum7Step
  fin := extend7Fin

/-- `MidiSafe(ALG)`: for every `q`, `compute(q) <= 0x7F` (R73), `q` being of length 0 to 65535 (R70). A named property,
never assumed of `Config.alg`. -/
def MidiSafe (alg : Alg) : Prop := ∀ q : List Byte, q.length ≤ Config.maxBuf → (compute alg q).toNat ≤ 0x7F

/-- `Sensitive7(ALG)`: replacing a byte by one that differs from it in bits 6:0 changes `compute` (R73), the
sequence being of length 0 to 65535 (R70). A named property, never assumed of `Config.alg`. -/
def Sensitive7 (alg : Alg) : Prop :=
  ∀ (q : List Byte) (i : Nat) (h : i < q.length) (c : Byte), q.length ≤ Config.maxBuf →
    c.setWidth 7 ≠ (q[i]).setWidth 7 → compute alg (q.set i c) ≠ compute alg q

end Sys2Proof.Machine
end

