-- ==== Sys2Proof/Machine/Pseudo.lean ====
section
/-! DEFINITION. The six pseudo-instructions, each with its expansion into exactly one command (`30_encoding.md` R61). -/

namespace Sys2Proof.Machine

/-- `COMPUTE start, len` is `CSUM start, len`. -/
def pseudoCompute (start len : Off) : Instr := .csum start len

/-- `VERIFY at, start, len` is `CSVER at, start, len`. -/
def pseudoVerify (pos start len : Off) : Instr := .csver pos start len

/-- `LDB off` is `LDF off, 0, 8`. -/
def pseudoLdb (off : Off) : Instr := .ldf off 0 8

/-- `STB off, v` is `STF off, 0, 8, v`. -/
def pseudoStb (off : Off) (v : Val) : Instr := .stf off 0 8 v

/-- `LD7 off` is `LDF off, 0, 7`. -/
def pseudoLd7 (off : Off) : Instr := .ldf off 0 7

/-- `ST7 off, v` is `STF off, 0, 7, v`. -/
def pseudoSt7 (off : Off) (v : Val) : Instr := .stf off 0 7 v

end Sys2Proof.Machine
end

