-- ==== Sys2Proof/Machine/Assembler.lean ====
section
/-! DEFINITION. The assembler of one line (`30_encoding.md` R60, R61): mnemonic in capitals, operands separated by commas,
numbers decimal or `0x` hexadecimal, a comment from `;` to the end of the line. It refuses a line whose operands do not
fit their fields or whose descriptor is illegal. Blanks and the letters of hexadecimal digits are log 13. -/

namespace Sys2Proof.Machine

/-- A blank between words. -/
def isBlank (c : Char) : Bool := c == ' ' || c == '\t'

/-- Without blanks at either end. -/
def trimBlanks (cs : List Char) : List Char :=
  ((cs.dropWhile isBlank).reverse.dropWhile isBlank).reverse

/-- The pieces of a text between its commas. -/
def splitCommas : List Char → List (List Char)
  | [] => [[]]
  | c :: cs =>
    if c = ',' then [] :: splitCommas cs
    else
      match splitCommas cs with
      | [] => [[c]]
      | p :: ps => (c :: p) :: ps

/-- The value of a digit, 0 to 15. -/
def digitValue (c : Char) : Option Nat :=
  if '0' ≤ c ∧ c ≤ '9' then some (c.toNat - '0'.toNat)
  else if 'a' ≤ c ∧ c ≤ 'f' then some (c.toNat - 'a'.toNat + 10)
  else if 'A' ≤ c ∧ c ≤ 'F' then some (c.toNat - 'A'.toNat + 10)
  else none

/-- Digits in a base, after those already read. -/
def digitsValue (base : Nat) : Nat → List Char → Option Nat
  | acc, [] => some acc
  | acc, c :: cs =>
    match digitValue c with
    | some d => if d < base then digitsValue base (acc * base + d) cs else none
    | none => none

/-- A number: decimal, or hexadecimal with `0x` (R60). -/
def parseNumber : List Char → Option Nat
  | [] => none
  | '0' :: 'x' :: d :: ds => digitsValue 16 0 (d :: ds)
  | d :: ds => digitsValue 10 0 (d :: ds)

/-- The operands of a line; none at all when nothing but blanks follows the mnemonic. -/
def parseOperands (cs : List Char) : Option (List Nat) :=
  match trimBlanks cs with
  | [] => some []
  | c :: rest => (splitCommas (c :: rest)).mapM fun p => parseNumber (trimBlanks p)

/-- An operand that fits a field of `n` bits (R60). -/
def fitField (n v : Nat) : Option (BitVec n) := if v < 2 ^ n then some (BitVec.ofNat n v) else none

/-- The command of a mnemonic with its operands in the order of R57's table; the pseudo-instructions by R61. -/
def buildCommand (mnemonic : List Char) (ops : List Nat) : Option Instr :=
  if mnemonic = "CSUM".toList ∨ mnemonic = "COMPUTE".toList then
    match ops with
    | [st, ln] => do pure (.csum (← fitField 16 st) (← fitField 16 ln))
    | _ => none
  else if mnemonic = "CSVER".toList ∨ mnemonic = "VERIFY".toList then
    match ops with
    | [p, st, ln] => do pure (.csver (← fitField 16 p) (← fitField 16 st) (← fitField 16 ln))
    | _ => none
  else if mnemonic = "CSPUT".toList then
    match ops with
    | [p, st, ln] => do pure (.csput (← fitField 16 p) (← fitField 16 st) (← fitField 16 ln))
    | _ => none
  else if mnemonic = "UNPK".toList then
    match ops with
    | [b, s, w] => do pure (.unpk (← fitField 8 b) (← fitField 3 s) (← fitField 4 w))
    | _ => none
  else if mnemonic = "PACK".toList then
    match ops with
    | [b, s, w, v] => do pure (.pack (← fitField 8 b) (← fitField 3 s) (← fitField 4 w) (← fitField 16 v))
    | _ => none
  else if mnemonic = "LDF".toList then
    match ops with
    | [o, s, w] => do pure (.ldf (← fitField 16 o) (← fitField 3 s) (← fitField 4 w))
    | _ => none
  else if mnemonic = "STF".toList then
    match ops with
    | [o, s, w, v] => do pure (.stf (← fitField 16 o) (← fitField 3 s) (← fitField 4 w) (← fitField 16 v))
    | _ => none
  else if mnemonic = "LDB".toList then
    match ops with
    | [o] => do pure (pseudoLdb (← fitField 16 o))
    | _ => none
  else if mnemonic = "STB".toList then
    match ops with
    | [o, v] => do pure (pseudoStb (← fitField 16 o) (← fitField 16 v))
    | _ => none
  else if mnemonic = "LD7".toList then
    match ops with
    | [o] => do pure (pseudoLd7 (← fitField 16 o))
    | _ => none
  else if mnemonic = "ST7".toList then
    match ops with
    | [o, v] => do pure (pseudoSt7 (← fitField 16 o) (← fitField 16 v))
    | _ => none
  else none

/-- One line of assembler text: its command, or `none` when the line is refused or holds no command (R60). -/
def assembleLine (line : List Char) : Option Instr :=
  let text := (line.takeWhile (· ≠ ';')).dropWhile isBlank
  let mnemonic := text.takeWhile fun c => !isBlank c
  match parseOperands (text.dropWhile fun c => !isBlank c) with
  | none => none
  | some ops =>
    match buildCommand mnemonic ops with
    | none => none
    | some i => if i.wellFormed then some i else none

/-- One line of assembler text to its command word (R60). -/
def assembleWord (line : List Char) : Option CmdWord := (assembleLine line).map encode

end Sys2Proof.Machine
end

