-- ==== Sys2Proof/Machine/Layout.lean ====
section
/-! DEFINITION. The wire layout the host works from (`20_memory.md` R39 to R41, `00_scope.md` R6). No command depends on
it. `HDR_LEN` and `COMMON_LEN` are open and are arguments here (log 17). -/

namespace Sys2Proof.Machine

/-- The regions of one patch message (R39). -/
inductive Region where
  | header
  | toneMap
  | checksum
  | commonBlock
  | sourceBlock (k : Nat)
  | trailer
  deriving DecidableEq, Repr

/-- The regions in wire order with their lengths (R39). -/
def frameRegions (hdrLen commonLen sourceCount : Nat) : List (Region × Nat) :=
  [(.header, hdrLen), (.toneMap, Config.toneMapLen), (.checksum, Config.csumLen), (.commonBlock, commonLen)]
    ++ (List.range sourceCount).map (fun k => (.sourceBlock k, Config.srcLen))
    ++ [(.trailer, Config.trailerLen)]

/-- The offset at which a region starts: the lengths of the regions before it. -/
def regionStart : List (Region × Nat) → Region → Option Nat
  | [], _ => none
  | (r, n) :: rs, r' => if r = r' then some 0 else (regionStart rs r').map (n + ·)

/-- The length of the whole message. -/
def regionsLength (rs : List (Region × Nat)) : Nat := (rs.map (·.2)).sum

/-- `at = HDR_LEN + 19` (R40). -/
def frameAt (hdrLen : Nat) : Nat := hdrLen + 19

/-- `start = at + 1` (R40). -/
def frameStart (hdrLen : Nat) : Nat := frameAt hdrLen + 1

/-- `len = COMMON_LEN + 86 * sourceCount` (R40). -/
def frameBodyLen (commonLen sourceCount : Nat) : Nat := commonLen + 86 * sourceCount

/-- `BUFLEN = start + len + 1` (R40): the terminator is the last byte. -/
def frameLength (hdrLen commonLen sourceCount : Nat) : Nat :=
  frameStart hdrLen + frameBodyLen commonLen sourceCount + 1

/-- `sourceCount` is in 1 to 6 (R6). -/
def sourceCountInRange (sourceCount : Nat) : Bool :=
  decide (Config.srcMin ≤ sourceCount ∧ sourceCount ≤ Config.srcMax)

/-- The command of the decode direction for a whole message: `CSVER at, start, len` (R40). THE MODEL'S CHOICE (log 18): for
lengths that make an operand exceed 65535 the spec gives no command, and the operand is cut to its low 16 bits here. -/
def verifyFrame (hdrLen commonLen sourceCount : Nat) : Instr :=
  .csver (BitVec.ofNat 16 (frameAt hdrLen)) (BitVec.ofNat 16 (frameStart hdrLen))
    (BitVec.ofNat 16 (frameBodyLen commonLen sourceCount))

/-- The command of the encode direction for a whole message: `CSPUT at, start, len` (R40). Operands over 65535 are cut as in
`verifyFrame` (THE MODEL'S CHOICE, log 18). -/
def encodeFrame (hdrLen commonLen sourceCount : Nat) : Instr :=
  .csput (BitVec.ofNat 16 (frameAt hdrLen)) (BitVec.ofNat 16 (frameStart hdrLen))
    (BitVec.ofNat 16 (frameBodyLen commonLen sourceCount))

/-- The operands when the buffer is what the Frame Envelope calls `bodyBytes` (tone map, checksum byte, body):
`at = 19`, `start = 20`, `len = BUFLEN - 20` (R41). THE MODEL'S CHOICE (log 19): for `BUFLEN` below 20 the spec gives no
such command, and `len` is the 16-bit difference, which wraps. -/
def verifyUnwrapped (buflen : Off) : Instr := .csver 19 20 (buflen - 20)

/-- As `verifyUnwrapped`, for the encode direction (R41), with the same choice below 20 (log 19). -/
def encodeUnwrapped (buflen : Off) : Instr := .csput 19 20 (buflen - 20)

end Sys2Proof.Machine
end

