-- ==== Sys2Proof/Safety.lean ====
section
/-! DEFINITION. The terms that claims use: the invariant of the engine's state, the host's duty, what a command word
asks for before any data is read, and the contents of a range of the buffer. -/

namespace Sys2Proof.Machine

/-- The invariant of the state: the buffer is in its canonical form and lies below `BUFLEN` (`10_state.md` R11), `STAT` is
a class the engine reports (R14, `60_exceptions.md` R112), `EOFF` is 0 after success (R15), `RES` is 0 after any error
(R13), and no buffer is attached outside a session (R128). -/
structure State.Inv (s : State) : Prop where
  bufCanonical : s.buf.wf = true
  bufInside : ∀ c ∈ s.buf, c.1 < s.buflen.toNat
  statReported : ∃ c : ReportClass, c.reported = true ∧ s.stat = c.stat
  okHasNoOffset : s.stat = 0 → s.eoff = 0
  errorHasNoResult : s.stat ≠ 0 → s.res = 0
  closedHasNoBuffer : s.sessionOpen = false → s.buflen = 0

/-- The host keeps the duty of `Attach`: no session open, and at most 65535 bytes (R128, R131). -/
def State.HostDutiful (s : State) : Prop :=
  match s.events with
  | .attach bytes :: _ => s.sessionOpen = false ∧ bytes.length ≤ 65535
  | _ => True

/-- The bytes of the buffer from `start` on are `q` (`20_memory.md` R31). -/
def State.HoldsAt (s : State) (start : Nat) (q : List Byte) : Prop :=
  ∀ (i : Nat) (h : i < q.length), s.buf.read (start + i) = q[i]

/-- Illegal by value: the stored checksum byte inside its own range (`40_checksum.md` R80). -/
def IllegalByValue : Instr → Prop
  | .csum _ _ => False
  | .csver pos start len => start.toNat ≤ pos.toNat ∧ pos.toNat < start.toNat + len.toNat
  | .csput pos start len => start.toNat ≤ pos.toNat ∧ pos.toNat < start.toNat + len.toNat
  | .unpk _ _ _ => False
  | .pack _ _ _ _ => False
  | .ldf _ _ _ => False
  | .stf _ _ _ _ => False

/-- A value operand that exceeds its declared width (`41_bitfield.md` R100). -/
def ValueTooWide : Instr → Prop
  | .csum _ _ => False
  | .csver _ _ _ => False
  | .csput _ _ _ => False
  | .unpk _ _ _ => False
  | .pack _ _ w v => 2 ^ w.toNat ≤ v.toNat
  | .ldf _ _ _ => False
  | .stf _ _ w v => 2 ^ w.toNat ≤ v.toNat

/-- An offset of the command is not inside a buffer of `n` bytes (`20_memory.md` R34). -/
def OutOfBounds (n : Nat) : Instr → Prop
  | .csum start len => n < start.toNat + len.toNat
  | .csver pos start len => n ≤ pos.toNat ∨ n < start.toNat + len.toNat
  | .csput pos start len => n ≤ pos.toNat ∨ n < start.toNat + len.toNat
  | .unpk _ _ _ => False
  | .pack _ _ _ _ => False
  | .ldf off _ _ => n ≤ off.toNat
  | .stf off _ _ _ => n ≤ off.toNat

/-- A descriptor that R56 calls legal. -/
def LegalField (s : Shift) (w : Width) : Prop := 1 ≤ w.toNat ∧ w.toNat ≤ 8 ∧ s.toNat + w.toNat ≤ 8

end Sys2Proof.Machine
end

