-- ==== Sys2Proof/Certificates/Slice0/Obligations.lean ====
section
/-! DEFINITION. The statements for the provers. Every one is about the machine, for the engine's own free `ALG` unless it
names a candidate. A next state is written out field by field over the state before, so that it says the frame too. -/

open Sys2Proof Sys2Proof.Machine

/-! ## The seven commands -/

/-- `CSUM` (`40_checksum.md` R77, R72): the word, the checksum of the range, `TruncatedInput`, and
`IllegalCommand` for every word with its opcode that is spelled otherwise. -/
def Obligations.CsumReportsTheRangeChecksum : Prop :=
  (∀ (start len : Off) (s : State),
     decode (0x1#4 ++ 0#28 ++ start ++ len) = .ok (.csum start len) ∧
     (∀ q : List Byte, q.length = len.toNat → s.HoldsAt start.toNat q →
       start.toNat + len.toNat ≤ s.buflen.toNat →
       exec (.csum start len) s = .next { s with
         res := Config.alg.fin (q.foldl Config.alg.step Config.alg.init), stat := 0, eoff := 0 }) ∧
     (s.buflen.toNat < start.toNat + len.toNat →
       exec (.csum start len) s = .next { s with res := 0, stat := 4, eoff := s.buflen })) ∧
  ∀ (cw : CmdWord) (s : State), cw.extractLsb' 60 4 = 0x1#4 →
    (∀ (start len : Off), cw ≠ 0x1#4 ++ 0#28 ++ start ++ len) →
    issueWord cw s = .next { s with res := 0, stat := 7, eoff := 0 }

/-- `CSVER` (`40_checksum.md` R78): the word, the four ends in the order they are tested, all 8 bits compared, and the
words with its opcode that are spelled otherwise. -/
def Obligations.CsverComparesWithTheStoredByte : Prop :=
  (∀ (pos start len : Off) (s : State),
     decode (0x2#4 ++ 0#12 ++ pos ++ start ++ len) = .ok (.csver pos start len) ∧
     ((start.toNat ≤ pos.toNat ∧ pos.toNat < start.toNat + len.toNat) →
       exec (.csver pos start len) s = .next { s with res := 0, stat := 7, eoff := 0 }) ∧
     (¬ (start.toNat ≤ pos.toNat ∧ pos.toNat < start.toNat + len.toNat) →
       ((s.buflen.toNat ≤ pos.toNat ∨ s.buflen.toNat < start.toNat + len.toNat) →
         exec (.csver pos start len) s = .next { s with res := 0, stat := 4, eoff := s.buflen }) ∧
       (∀ q : List Byte, q.length = len.toNat → s.HoldsAt start.toNat q →
         pos.toNat < s.buflen.toNat → start.toNat + len.toNat ≤ s.buflen.toNat →
         (Config.alg.fin (q.foldl Config.alg.step Config.alg.init) = s.buf.read pos.toNat →
           exec (.csver pos start len) s = .next { s with res := 1, stat := 0, eoff := 0 }) ∧
         (Config.alg.fin (q.foldl Config.alg.step Config.alg.init) ≠ s.buf.read pos.toNat →
           exec (.csver pos start len) s = .next { s with res := 0, stat := 2, eoff := pos })))) ∧
  ∀ (cw : CmdWord) (s : State), cw.extractLsb' 60 4 = 0x2#4 →
    (∀ (pos start len : Off), cw ≠ 0x2#4 ++ 0#12 ++ pos ++ start ++ len) →
    issueWord cw s = .next { s with res := 0, stat := 7, eoff := 0 }

/-- `CSPUT` (`40_checksum.md` R79): the word, the three ends, the one byte that changes, and the words with its opcode
that are spelled otherwise. -/
def Obligations.CsputStoresTheRangeChecksum : Prop :=
  (∀ (pos start len : Off) (s : State),
     decode (0x3#4 ++ 0#12 ++ pos ++ start ++ len) = .ok (.csput pos start len) ∧
     ((start.toNat ≤ pos.toNat ∧ pos.toNat < start.toNat + len.toNat) →
       exec (.csput pos start len) s = .next { s with res := 0, stat := 7, eoff := 0 }) ∧
     (¬ (start.toNat ≤ pos.toNat ∧ pos.toNat < start.toNat + len.toNat) →
       ((s.buflen.toNat ≤ pos.toNat ∨ s.buflen.toNat < start.toNat + len.toNat) →
         exec (.csput pos start len) s = .next { s with res := 0, stat := 4, eoff := s.buflen }) ∧
       (∀ q : List Byte, q.length = len.toNat → s.HoldsAt start.toNat q →
         pos.toNat < s.buflen.toNat → start.toNat + len.toNat ≤ s.buflen.toNat →
         ∃ m : Memory,
           exec (.csput pos start len) s = .next { s with
             buf := m, res := Config.alg.fin (q.foldl Config.alg.step Config.alg.init), stat := 0, eoff := 0 } ∧
           m.read pos.toNat = Config.alg.fin (q.foldl Config.alg.step Config.alg.init) ∧
           ∀ a, a ≠ pos.toNat → m.read a = s.buf.read a))) ∧
  ∀ (cw : CmdWord) (s : State), cw.extractLsb' 60 4 = 0x3#4 →
    (∀ (pos start len : Off), cw ≠ 0x3#4 ++ 0#12 ++ pos ++ start ++ len) →
    issueWord cw s = .next { s with res := 0, stat := 7, eoff := 0 }

/-- `UNPK` (`41_bitfield.md` R96): the word, the field of the operand byte, whatever the buffer, and the words with its
opcode that are spelled otherwise. -/
def Obligations.UnpkReportsTheField : Prop :=
  (∀ (b : Byte) (sh : Shift) (w : Width) (s : State), LegalField sh w →
     decode (0x4#4 ++ sh ++ w ++ 0#13 ++ b ++ 0#32) = .ok (.unpk b sh w) ∧
     exec (.unpk b sh w) s = .next { s with
       res := BitVec.ofNat 8 (b.toNat / 2 ^ sh.toNat % 2 ^ w.toNat), stat := 0, eoff := 0 }) ∧
  ∀ (cw : CmdWord) (s : State), cw.extractLsb' 60 4 = 0x4#4 →
    (∀ (b : Byte) (sh : Shift) (w : Width), LegalField sh w → cw ≠ 0x4#4 ++ sh ++ w ++ 0#13 ++ b ++ 0#32) →
    issueWord cw s = .next { s with res := 0, stat := 7, eoff := 0 }

/-- `PACK` (`41_bitfield.md` R97): the word, the packed byte bit by bit, `FieldOutOfRange(0)`, and the words with its
opcode that are spelled otherwise. -/
def Obligations.PackReportsThePackedByte : Prop :=
  (∀ (b : Byte) (sh : Shift) (w : Width) (v : Val) (s : State), LegalField sh w →
     decode (0x5#4 ++ sh ++ w ++ 0#13 ++ b ++ v ++ 0#16) = .ok (.pack b sh w v) ∧
     (2 ^ w.toNat ≤ v.toNat → exec (.pack b sh w v) s = .next { s with res := 0, stat := 5, eoff := 0 }) ∧
     (v.toNat < 2 ^ w.toNat → ∀ r : Byte,
       (∀ i, i < 8 → r.getLsbD i =
         if sh.toNat ≤ i ∧ i < sh.toNat + w.toNat then v.getLsbD (i - sh.toNat) else b.getLsbD i) →
       exec (.pack b sh w v) s = .next { s with res := r, stat := 0, eoff := 0 })) ∧
  ∀ (cw : CmdWord) (s : State), cw.extractLsb' 60 4 = 0x5#4 →
    (∀ (b : Byte) (sh : Shift) (w : Width) (v : Val), LegalField sh w → cw ≠ 0x5#4 ++ sh ++ w ++ 0#13 ++ b ++ v ++ 0#16) →
    issueWord cw s = .next { s with res := 0, stat := 7, eoff := 0 }

/-- `LDF` (`41_bitfield.md` R98): the word, the field of the buffer byte, `TruncatedInput`, and the words with its opcode
that are spelled otherwise. -/
def Obligations.LdfReportsTheField : Prop :=
  (∀ (off : Off) (sh : Shift) (w : Width) (s : State), LegalField sh w →
     decode (0x6#4 ++ sh ++ w ++ 0#5 ++ off ++ 0#32) = .ok (.ldf off sh w) ∧
     (off.toNat < s.buflen.toNat →
       exec (.ldf off sh w) s = .next { s with
         res := BitVec.ofNat 8 ((s.buf.read off.toNat).toNat / 2 ^ sh.toNat % 2 ^ w.toNat), stat := 0, eoff := 0 }) ∧
     (s.buflen.toNat ≤ off.toNat →
       exec (.ldf off sh w) s = .next { s with res := 0, stat := 4, eoff := s.buflen })) ∧
  ∀ (cw : CmdWord) (s : State), cw.extractLsb' 60 4 = 0x6#4 →
    (∀ (off : Off) (sh : Shift) (w : Width), LegalField sh w → cw ≠ 0x6#4 ++ sh ++ w ++ 0#5 ++ off ++ 0#32) →
    issueWord cw s = .next { s with res := 0, stat := 7, eoff := 0 }

/-- `STF` (`41_bitfield.md` R99): the word, the three ends in the order they are tested, and the one byte that changes, in
the bits of the field only, and the words with its opcode that are spelled otherwise. -/
def Obligations.StfStoresTheField : Prop :=
  (∀ (off : Off) (sh : Shift) (w : Width) (v : Val) (s : State), LegalField sh w →
     decode (0x7#4 ++ sh ++ w ++ 0#5 ++ off ++ v ++ 0#16) = .ok (.stf off sh w v) ∧
     (2 ^ w.toNat ≤ v.toNat → exec (.stf off sh w v) s = .next { s with res := 0, stat := 5, eoff := off }) ∧
     (v.toNat < 2 ^ w.toNat →
       (s.buflen.toNat ≤ off.toNat →
         exec (.stf off sh w v) s = .next { s with res := 0, stat := 4, eoff := s.buflen }) ∧
       (off.toNat < s.buflen.toNat → ∃ m : Memory,
         exec (.stf off sh w v) s = .next { s with buf := m, res := m.read off.toNat, stat := 0, eoff := 0 } ∧
         (∀ i, i < 8 → (m.read off.toNat).getLsbD i =
           if sh.toNat ≤ i ∧ i < sh.toNat + w.toNat then v.getLsbD (i - sh.toNat)
           else (s.buf.read off.toNat).getLsbD i) ∧
         ∀ a, a ≠ off.toNat → m.read a = s.buf.read a))) ∧
  ∀ (cw : CmdWord) (s : State), cw.extractLsb' 60 4 = 0x7#4 →
    (∀ (off : Off) (sh : Shift) (w : Width) (v : Val), LegalField sh w → cw ≠ 0x7#4 ++ sh ++ w ++ 0#5 ++ off ++ v ++ 0#16) →
    issueWord cw s = .next { s with res := 0, stat := 7, eoff := 0 }

/-- THE MODEL'S CHOICE (log 8), after `30_encoding.md` R58 (e): a term whose descriptor is illegal ends as the illegal word
it spells. -/
def Obligations.IllegalDescriptorTermsAreReported : Prop :=
  ∀ (b : Byte) (off : Off) (sh : Shift) (w : Width) (v : Val) (s : State), ¬ LegalField sh w →
    exec (.unpk b sh w) s = .next { s with res := 0, stat := 7, eoff := 0 } ∧
    exec (.pack b sh w v) s = .next { s with res := 0, stat := 7, eoff := 0 } ∧
    exec (.ldf off sh w) s = .next { s with res := 0, stat := 7, eoff := 0 } ∧
    exec (.stf off sh w v) s = .next { s with res := 0, stat := 7, eoff := 0 }

/-! ## Frames -/

/-- What every command leaves alone: `BUFLEN` (`10_state.md` R12), the session (log 5) and the host's side (log 3). -/
def Obligations.CommandsKeepBuflenAndHostSide : Prop :=
  ∀ (i : Instr) (s t : State), exec i s = .next t →
    t.buflen = s.buflen ∧ t.sessionOpen = s.sessionOpen ∧ t.events = s.events ∧ t.replies = s.replies

/-- `CSUM`, `CSVER`, `UNPK`, `PACK`, `LDF` write no byte of the buffer (`20_memory.md` R30). -/
def Obligations.NonStoringCommandsKeepEveryByte : Prop :=
  ∀ (b : Byte) (off pos start len : Off) (sh : Shift) (w : Width) (v : Val) (s t : State),
    (exec (.csum start len) s = .next t ∨ exec (.csver pos start len) s = .next t ∨
      exec (.unpk b sh w) s = .next t ∨ exec (.pack b sh w v) s = .next t ∨ exec (.ldf off sh w) s = .next t) →
    ∀ a, t.buf.read a = s.buf.read a

/-- `CSPUT` writes at most the byte at `at`, `STF` at most the byte at `off` (`20_memory.md` R32). -/
def Obligations.StoringCommandsKeepEveryOtherByte : Prop :=
  ∀ (off pos start len : Off) (sh : Shift) (w : Width) (v : Val) (s t : State),
    (exec (.csput pos start len) s = .next t → ∀ a, a ≠ pos.toNat → t.buf.read a = s.buf.read a) ∧
    (exec (.stf off sh w v) s = .next t → ∀ a, a ≠ off.toNat → t.buf.read a = s.buf.read a)

/-- The whole-machine rule (`10_state.md` R11, R12): only `Attach`, `Detach` and `Reset` change `BUFLEN` or the session; only
these and an issued `CSPUT` or `STF` change `BUF`; only an issued word or `Reset` changes a response register; and what
the host has been handed grows only at `Detach`, `Observe` and the reading of a register (the host's lists are THE MODEL'S, log 3; the session, log 5). -/
def Obligations.OnlyTheseEventsChangeEachPieceOfState : Prop :=
  ∀ (s t : State) (e : HostEvent) (es : List HostEvent), s.events = e :: es → step s = .next t →
    (t.buflen ≠ s.buflen ∨ t.sessionOpen ≠ s.sessionOpen → e = .reset ∨ e = .detach ∨ ∃ bytes, e = .attach bytes) ∧
    (t.buf ≠ s.buf → e = .reset ∨ e = .detach ∨ (∃ bytes, e = .attach bytes) ∨
      ∃ cw i, e = .issue cw ∧ decode cw = .ok i ∧
        ((∃ pos start len, i = .csput pos start len) ∨ ∃ off sh w v, i = .stf off sh w v)) ∧
    (t.res ≠ s.res ∨ t.stat ≠ s.stat ∨ t.eoff ≠ s.eoff → e = .reset ∨ ∃ cw, e = .issue cw) ∧
    (t.replies ≠ s.replies → e = .detach ∨ e = .observe ∨ ∃ r, e = .readRegister r) ∧
    t.events = es

/-! ## Encoding -/

/-- Decoding gives back what was encoded, and encoding gives back what was decoded (`30_encoding.md` R59). -/
def Obligations.DecodeAndEncodeAgree : Prop :=
  (∀ i : Instr, i.wellFormed = true → decode (encode i) = .ok i) ∧
  (∀ (cw : CmdWord) (i : Instr), decode cw = .ok i → i.wellFormed = true ∧ encode i = cw) ∧
  (∀ (cw cw' : CmdWord) (i : Instr), decode cw = .ok i → decode cw' = .ok i → cw = cw')

/-- The second table of `30_encoding.md` R57, with the operand fields of R51 to R54: a word is a command exactly when it has
the command's fixed bits (and, for the four field commands, a legal descriptor), and its operands stand where R51 says. -/
def Obligations.DecodeFollowsTheOpcodeTable : Prop :=
  ∀ (cw : CmdWord) (b : Byte) (x y z : BitVec 16) (sh : Shift) (w : Width),
    (decode cw = .ok (.csum y z) ↔
      cw &&& 0xFFFFFFFF00000000 = 0x1000000000000000 ∧ y = cw.extractLsb' 16 16 ∧ z = cw.extractLsb' 0 16) ∧
    (decode cw = .ok (.csver x y z) ↔
      cw &&& 0xFFFF000000000000 = 0x2000000000000000 ∧
        x = cw.extractLsb' 32 16 ∧ y = cw.extractLsb' 16 16 ∧ z = cw.extractLsb' 0 16) ∧
    (decode cw = .ok (.csput x y z) ↔
      cw &&& 0xFFFF000000000000 = 0x3000000000000000 ∧
        x = cw.extractLsb' 32 16 ∧ y = cw.extractLsb' 16 16 ∧ z = cw.extractLsb' 0 16) ∧
    (decode cw = .ok (.unpk b sh w) ↔
      cw &&& 0xF01FFF00FFFFFFFF = 0x4000000000000000 ∧ LegalField sh w ∧
        b = cw.extractLsb' 32 8 ∧ sh = cw.extractLsb' 57 3 ∧ w = cw.extractLsb' 53 4) ∧
    (decode cw = .ok (.pack b sh w y) ↔
      cw &&& 0xF01FFF000000FFFF = 0x5000000000000000 ∧ LegalField sh w ∧
        b = cw.extractLsb' 32 8 ∧ sh = cw.extractLsb' 57 3 ∧ w = cw.extractLsb' 53 4 ∧ y = cw.extractLsb' 16 16) ∧
    (decode cw = .ok (.ldf x sh w) ↔
      cw &&& 0xF01F0000FFFFFFFF = 0x6000000000000000 ∧ LegalField sh w ∧
        x = cw.extractLsb' 32 16 ∧ sh = cw.extractLsb' 57 3 ∧ w = cw.extractLsb' 53 4) ∧
    (decode cw = .ok (.stf x sh w y) ↔
      cw &&& 0xF01F00000000FFFF = 0x7000000000000000 ∧ LegalField sh w ∧
        x = cw.extractLsb' 32 16 ∧ sh = cw.extractLsb' 57 3 ∧ w = cw.extractLsb' 53 4 ∧ y = cw.extractLsb' 16 16)

/-- `30_encoding.md` R58: a word is illegal by spelling exactly in the cases (a) to (h), an illegal word does
`raise IllegalCommand(0)`, and so does (i) a range command whose `at` lies in its range. -/
def Obligations.IllegalWordsAreExactlyThoseListed : Prop :=
  ∀ (cw : CmdWord) (s : State),
    let op := cw.toNat / 2 ^ 60 % 2 ^ 4
    let sh := cw.toNat / 2 ^ 57 % 2 ^ 3
    let w := cw.toNat / 2 ^ 53 % 2 ^ 4
    let z := cw.toNat / 2 ^ 48 % 2 ^ 5
    let a := cw.toNat / 2 ^ 32 % 2 ^ 16
    let b := cw.toNat / 2 ^ 16 % 2 ^ 16
    let c := cw.toNat % 2 ^ 16
    let spelling :=
      (op = 0 ∨ 8 ≤ op) ∨ z ≠ 0 ∨ ((op = 1 ∨ op = 2 ∨ op = 3) ∧ (sh ≠ 0 ∨ w ≠ 0)) ∨ (op = 1 ∧ a ≠ 0) ∨
      ((op = 4 ∨ op = 5 ∨ op = 6 ∨ op = 7) ∧ ¬ (1 ≤ w ∧ w ≤ 8 ∧ sh + w ≤ 8)) ∨
      ((op = 4 ∨ op = 5 ∨ op = 6 ∨ op = 7) ∧ c ≠ 0) ∨ ((op = 4 ∨ op = 6) ∧ b ≠ 0) ∨
      ((op = 4 ∨ op = 5) ∧ a / 2 ^ 8 ≠ 0)
    let byValue := (op = 2 ∨ op = 3) ∧ b ≤ a ∧ a < b + c
    ((∃ e, decode cw = .error e) ↔ spelling) ∧
    (spelling ∨ byValue → issueWord cw s = .next { s with res := 0, stat := 7, eoff := 0 }) ∧
    (¬ spelling ∧ ¬ byValue → ∃ t, issueWord cw s = .next t ∧ t.stat ≠ 7)

/-- Words written out in `30_encoding.md` R60 and `95_test_vectors.md` section 2.6 decode to their commands. -/
def Obligations.WrittenOutWordsDecode : Prop :=
  decode 0x1000000000010008 = .ok (.csum 1 8) ∧
  decode 0x2000001800190059 = .ok (.csver 24 25 89) ∧
  decode 0x3000001800190059 = .ok (.csput 24 25 89) ∧
  decode 0x4A40005500000000 = .ok (.unpk 0x55 5 2) ∧
  decode 0x5A40001500020000 = .ok (.pack 0x15 5 2 2) ∧
  decode 0x60E0001B00000000 = .ok (.ldf 27 0 7) ∧
  decode 0x7100000100000000 = .ok (.stf 1 0 8 0)

/-- The assembler's examples (`30_encoding.md` R60), a pseudo-instruction (R61), and lines it refuses; blanks as log 13. -/
def Obligations.AssemblerExamples : Prop :=
  assembleWord "CSUM 1, 8".toList = some 0x1000000000010008 ∧
  assembleWord "CSVER 0, 1, 8".toList = some 0x2000000000010008 ∧
  assembleWord "CSPUT 0, 1, 8".toList = some 0x3000000000010008 ∧
  assembleWord "UNPK 0x55, 5, 2".toList = some 0x4A40005500000000 ∧
  assembleWord "PACK 0x00, 0, 5, 0x15".toList = some 0x50A0000000150000 ∧
  assembleWord "LDF 3, 0, 7 ; a comment".toList = some 0x60E0000300000000 ∧
  assembleWord "STF 3, 5, 2, 2".toList = some 0x7A40000300020000 ∧
  assembleWord "STB 1, 0".toList = some 0x7100000100000000 ∧
  assembleWord "LDF 3, 1, 8".toList = none ∧
  assembleWord "CSUM 1, 65536".toList = none

/-- The assembler never answers an illegal command (`30_encoding.md` R60): what it answers decodes to a well-formed one. -/
def Obligations.AssembledLinesAreCommands : Prop :=
  ∀ (line : List Char) (cw : CmdWord), assembleWord line = some cw →
    ∃ i : Instr, assembleLine line = some i ∧ i.wellFormed = true ∧ decode cw = .ok i

/-- The pseudo-instructions (`30_encoding.md` R61): the whole-byte and 7-bit forms do what their reasons say. -/
def Obligations.PseudoInstructionsMoveWholeBytes : Prop :=
  ∀ (off : Off) (v : Val) (s : State), off.toNat < s.buflen.toNat →
    exec (pseudoLdb off) s = .next { s with res := s.buf.read off.toNat, stat := 0, eoff := 0 } ∧
    exec (pseudoLd7 off) s = .next { s with res := s.buf.read off.toNat &&& 0x7F, stat := 0, eoff := 0 } ∧
    (256 ≤ v.toNat → exec (pseudoStb off v) s = .next { s with res := 0, stat := 5, eoff := off }) ∧
    (128 ≤ v.toNat → exec (pseudoSt7 off v) s = .next { s with res := 0, stat := 5, eoff := off }) ∧
    (v.toNat < 256 → ∃ m : Memory,
      exec (pseudoStb off v) s = .next { s with buf := m, res := v.setWidth 8, stat := 0, eoff := 0 } ∧
      m.read off.toNat = v.setWidth 8 ∧ ∀ a, a ≠ off.toNat → m.read a = s.buf.read a) ∧
    (v.toNat < 128 → ∃ m : Memory,
      exec (pseudoSt7 off v) s = .next { s with buf := m, res := m.read off.toNat, stat := 0, eoff := 0 } ∧
      m.read off.toNat = (s.buf.read off.toNat &&& 0x80) ||| v.setWidth 8 ∧
      ∀ a, a ≠ off.toNat → m.read a = s.buf.read a)

/-! ## The step and the host -/

/-- A step at an issued word is `issueWord` of it (`60_exceptions.md` R130): `exec` of the decoded command, or, when the word
does not decode, `raise IllegalCommand(0)` (`30_encoding.md` R58). What the step adds around it: the event is taken from
the host's list (THE MODEL'S, log 3), and nothing else. -/
def Obligations.StepRunsTheDecodedCommand : Prop :=
  ∀ (s : State) (cw : CmdWord) (es : List HostEvent), s.events = .issue cw :: es →
    step s = issueWord cw { s with events := es } ∧
    (∀ i : Instr, decode cw = .ok i → step s = exec i { s with events := es }) ∧
    (∀ e : IllegalWord, decode cw = .error e → step s = .next { s with events := es, res := 0, stat := 7, eoff := 0 })

/-- The word placed for the host is the one the very next step runs, and the state it runs in is the one it was placed in
(THE MODEL'S CHOICE of how a program comes to run, log 7). -/
def Obligations.PlacedWordRunsNext : Prop :=
  ∀ (s : State) (nbits w : Nat) (i : Instr), decodeTableWord nbits w = some i →
    step (s.withFetchWord nbits w) = exec i s

/-- The engine is never stuck: every word ends in a next state, and a step stops only where the host breaks the duty of
`Attach` (`10_state.md` R10, `60_exceptions.md` R116, R131; that it stops there is THE MODEL'S refusal, log 6, and that
it goes on with no event, log 4). -/
def Obligations.EngineIsNeverStuck : Prop :=
  (∀ (cw : CmdWord) (s : State), ∃ t, issueWord cw s = .next t ∧ t.events = s.events) ∧
  (∀ s : State, (∃ t, step s = .next t) ↔ s.HostDutiful) ∧
  (∀ (s : State) (f : Fault), step s ≠ .fault f) ∧
  (∀ (s : State) (name : String), step s ≠ .refused (.notModelled name))

/-- `Attach` (`60_exceptions.md` R128): the buffer becomes the bytes, `BUFLEN` their number, the response registers stay.
That `BUF` is in canonical form (`t.buf.wf`) is not R128's: it is THE MODEL'S representation (log 2). The open session is
its bit of log 5, the host's lists log 3. -/
def Obligations.AttachSetsTheBuffer : Prop :=
  ∀ (s : State) (bytes : List Byte) (es : List HostEvent), s.events = .attach bytes :: es →
    s.sessionOpen = false → bytes.length ≤ 65535 →
    ∃ t, step s = .next t ∧ t.buflen.toNat = bytes.length ∧ t.HoldsAt 0 bytes ∧ t.buf.wf = true ∧
      t.sessionOpen = true ∧ t.res = s.res ∧ t.stat = s.stat ∧ t.eoff = s.eoff ∧
      t.events = es ∧ t.replies = s.replies

/-- `Attach` outside its premise has no meaning in the model (`60_exceptions.md` R131, `93` X3; refusals as log 6). -/
def Obligations.AttachOutOfPlaceIsRefused : Prop :=
  ∀ (s : State) (bytes : List Byte) (es : List HostEvent), s.events = .attach bytes :: es →
    (s.sessionOpen = true → step s = .refused .attachDuringSession) ∧
    (s.sessionOpen = false → 65535 < bytes.length → step s = .refused .attachTooLong)

/-- `Detach` (`60_exceptions.md` R129): the host takes `BUF[0 .. BUFLEN-1]` as it stands, nothing stays attached.
What the host takes is a reply in THE MODEL'S list (log 3); with no session open it takes no bytes (log 11). -/
def Obligations.DetachHandsTheBytesBack : Prop :=
  ∀ (s : State) (es : List HostEvent), s.events = .detach :: es →
    ∃ (t : State) (bytes : List Byte), step s = .next t ∧ bytes.length = s.buflen.toNat ∧ s.HoldsAt 0 bytes ∧
      t.replies = s.replies ++ [.bytes bytes] ∧ t.buflen = 0 ∧ t.buf = [] ∧ t.sessionOpen = false ∧
      t.res = s.res ∧ t.stat = s.stat ∧ t.eoff = s.eoff ∧ t.events = es

/-- `Attach` then `Detach` with nothing between gives the host its bytes back (`60_exceptions.md` R128, R129; the
host's lists are log 3). -/
def Obligations.DetachAfterAttachReturnsTheBytes : Prop :=
  ∀ (s t : State) (bytes : List Byte) (es : List HostEvent), s.events = .attach bytes :: .detach :: es →
    step s = .next t → ∃ u, step t = .next u ∧ u.replies = s.replies ++ [.bytes bytes] ∧ u.buf = [] ∧ u.buflen = 0

/-- `Reset` (`70_reset_and_hazards.md` R140, `10_state.md` R23); that the host's own lists stay is THE MODEL'S (log 14). -/
def Obligations.ResetEventClearsTheEngine : Prop :=
  ∀ (s : State) (es : List HostEvent), s.events = .reset :: es →
    step s = .next { buf := [], buflen := 0, res := 0, stat := 0, eoff := 0, sessionOpen := false,
                     events := es, replies := s.replies }

/-- `Observe` hands out the three response registers and changes nothing of the engine (`60_exceptions.md` R130). The reply
added to `replies` and the event taken are THE MODEL'S form of it (log 3), and that the state stays with no event is
log 4. -/
def Obligations.ObserveReadsTheReport : Prop :=
  (∀ (s : State) (es : List HostEvent), s.events = .observe :: es →
    step s = .next { s with events := es, replies := s.replies ++ [.report s.res s.stat s.eoff] }) ∧
  (∀ s : State, s.events = [] → step s = .next s)

/-! ## Reset, invariant and statelessness -/

/-- The values after reset (`10_state.md` R23). -/
def Obligations.ResetLeavesTheStatedValues : Prop :=
  State.reset.buflen = 0 ∧ State.reset.buf = [] ∧ State.reset.res = 0 ∧ State.reset.stat = 0 ∧ State.reset.eoff = 0

/-- The invariant holds after reset (`10_state.md` R23; logs 2 and 5 as below). -/
def Obligations.ResetMeetsTheInvariant : Prop := State.reset.Inv

/-- Every step keeps the invariant: the buffer's canonical form below `BUFLEN`, a reported class in `STAT`, `EOFF` 0 after
success, `RES` 0 after an error, no buffer outside a session (`10_state.md` R11 to R15, `60_exceptions.md` R112). The canonical form
is the model's (log 2), and so is the session's bit (log 5). -/
def Obligations.StepKeepsTheInvariant : Prop := ∀ s t : State, s.Inv → step s = .next t → t.Inv

/-- The statelessness law (`10_state.md` R16): two engines with the same bytes, `BUFLEN`, `ALG` and word produce the same
`RES`, `STAT`, `EOFF` and bytes, whatever else they hold. -/
def Obligations.OutcomeIsAFunctionOfWordAndBuffer : Prop :=
  ∀ (cw : CmdWord) (s₁ s₂ : State), s₁.buflen = s₂.buflen →
    (∀ a, a < s₁.buflen.toNat → s₁.buf.read a = s₂.buf.read a) →
    ∃ t₁ t₂, issueWord cw s₁ = .next t₁ ∧ issueWord cw s₂ = .next t₂ ∧
      t₁.res = t₂.res ∧ t₁.stat = t₂.stat ∧ t₁.eoff = t₂.eoff ∧ t₁.buflen = t₂.buflen ∧
      ∀ a, a < t₁.buflen.toNat → t₁.buf.read a = t₂.buf.read a

/-- A command reads only the bytes it names: the range (and `at` for `CSVER`), or the one byte at `off`
(`20_memory.md` R37, `40_checksum.md` R73 L2). -/
def Obligations.CommandsReadOnlyTheBytesTheyName : Prop :=
  ∀ (pos start len off : Off) (sh : Shift) (w : Width) (v : Val) (s₁ s₂ : State), s₁.buflen = s₂.buflen →
    let sameReport := fun i : Instr => ∃ t₁ t₂, exec i s₁ = .next t₁ ∧ exec i s₂ = .next t₂ ∧
      t₁.res = t₂.res ∧ t₁.stat = t₂.stat ∧ t₁.eoff = t₂.eoff
    let sameRange := ∀ i, i < len.toNat → s₁.buf.read (start.toNat + i) = s₂.buf.read (start.toNat + i)
    (sameRange → sameReport (.csum start len) ∧ sameReport (.csput pos start len)) ∧
    (sameRange → s₁.buf.read pos.toNat = s₂.buf.read pos.toNat → sameReport (.csver pos start len)) ∧
    (s₁.buf.read off.toNat = s₂.buf.read off.toNat →
      sameReport (.ldf off sh w) ∧ sameReport (.stf off sh w v))

/-! ## Reports -/

/-- The codes, the fixed bits of `STAT` and the severities of `60_exceptions.md` R110. -/
def Obligations.ClassCodesAndSeverities : Prop :=
  ReportClass.ok.stat = 0 ∧ ReportClass.malformedFrame.stat = 1 ∧ ReportClass.checksumMismatch.stat = 2 ∧
  ReportClass.invalidSourceCount.stat = 3 ∧ ReportClass.truncatedInput.stat = 4 ∧
  ReportClass.fieldOutOfRange.stat = 5 ∧ ReportClass.reserved.stat = 6 ∧ ReportClass.illegalCommand.stat = 7 ∧
  ∀ c : ReportClass, c.severity = some .recoverable ↔ c = .checksumMismatch

/-- No word leaves 1, 3 or 6 in `STAT`, and bits 7:3 are 0 (`60_exceptions.md` R112, `10_state.md` R14). -/
def Obligations.StatIsAlwaysAReportedClass : Prop :=
  ∀ (cw : CmdWord) (s : State), ∃ t, issueWord cw s = .next t ∧
    (t.stat = 0 ∨ t.stat = 2 ∨ t.stat = 4 ∨ t.stat = 5 ∨ t.stat = 7)

/-- Exactly one class is reported, the first that applies (`60_exceptions.md` R117); when no earlier one does, class 2 for
a `CSVER` whose range has another checksum than the stored byte, and success otherwise. -/
def Obligations.ReportsFollowThePriority : Prop :=
  ∀ (cw : CmdWord) (s : State), ∃ t, issueWord cw s = .next t ∧
    (∀ e, decode cw = .error e → t.stat = 7) ∧
    (∀ i, decode cw = .ok i →
      (IllegalByValue i → t.stat = 7) ∧
      (¬ IllegalByValue i → ValueTooWide i → t.stat = 5 ∧ ∀ off sh w v, i = .stf off sh w v → t.eoff = off) ∧
      (¬ IllegalByValue i → ¬ ValueTooWide i → OutOfBounds s.buflen.toNat i → t.stat = 4) ∧
      (¬ IllegalByValue i → ¬ ValueTooWide i → ¬ OutOfBounds s.buflen.toNat i →
        ((∀ pos start len, i ≠ .csver pos start len) → t.stat = 0) ∧
        ∀ pos start len, i = .csver pos start len →
          (t.stat = 0 ∨ t.stat = 2) ∧
          ∀ q : List Byte, q.length = len.toNat → s.HoldsAt start.toNat q →
            (t.stat = 2 ↔ Config.alg.fin (q.foldl Config.alg.step Config.alg.init) ≠ s.buf.read pos.toNat)))

/-- The offset reported, by class (`60_exceptions.md` R115). -/
def Obligations.ReportOffsetsByClass : Prop :=
  (∀ (cw : CmdWord) (e : IllegalWord) (s : State), decode cw = .error e → ∃ t, issueWord cw s = .next t ∧ t.eoff = 0) ∧
  ∀ (i : Instr) (s t : State), exec i s = .next t →
    (t.stat = 0 → t.eoff = 0) ∧
    (t.stat = 2 → ∃ pos start len, i = .csver pos start len ∧ t.eoff = pos) ∧
    (t.stat = 4 → t.eoff = s.buflen) ∧
    (t.stat = 5 → (∃ off sh w v, i = .stf off sh w v ∧ t.eoff = off) ∨ (∃ b sh w v, i = .pack b sh w v ∧ t.eoff = 0)) ∧
    (t.stat = 7 → t.eoff = 0)

/-- After any report other than `Ok` the buffer is what it was and `RES` is 0 (`60_exceptions.md` R118, R111). -/
def Obligations.ErrorsLeaveTheBufferAlone : Prop :=
  ∀ (cw : CmdWord) (s : State), ∃ t, issueWord cw s = .next t ∧
    (t.stat ≠ 0 → t.buf = s.buf ∧ t.res = 0) ∧ t.buflen = s.buflen

/-- `FieldOutOfRange` is reported by `PACK` and `STF` exactly when `v >= 2^w`, never by `UNPK` and `LDF`, and what these two
deliver always fits (`41_bitfield.md` R100). -/
def Obligations.FieldOutOfRangeExactlyWhenTooWide : Prop :=
  ∀ (b : Byte) (off : Off) (sh : Shift) (w : Width) (v : Val) (s : State), LegalField sh w →
    (∃ t, exec (.pack b sh w v) s = .next t ∧ (t.stat = 5 ↔ 2 ^ w.toNat ≤ v.toNat)) ∧
    (∃ t, exec (.stf off sh w v) s = .next t ∧ (t.stat = 5 ↔ 2 ^ w.toNat ≤ v.toNat)) ∧
    (∃ t, exec (.unpk b sh w) s = .next t ∧ t.stat ≠ 5 ∧ t.res.toNat < 2 ^ w.toNat) ∧
    (∃ t, exec (.ldf off sh w) s = .next t ∧ t.stat ≠ 5 ∧ t.res.toNat < 2 ^ w.toNat)

/-- The stored checksum byte may not lie inside its own range, whatever `BUFLEN`, and may lie anywhere else
(`40_checksum.md` R80). -/
def Obligations.StoredByteInsideItsRangeIsIllegal : Prop :=
  ∀ (pos start len : Off) (s : State),
    let inside := start.toNat ≤ pos.toNat ∧ pos.toNat < start.toNat + len.toNat
    (inside → exec (.csver pos start len) s = .next { s with res := 0, stat := 7, eoff := 0 } ∧
      exec (.csput pos start len) s = .next { s with res := 0, stat := 7, eoff := 0 }) ∧
    (¬ inside → ∃ t u, exec (.csver pos start len) s = .next t ∧ exec (.csput pos start len) s = .next u ∧
      t.stat ≠ 7 ∧ u.stat ≠ 7)

/-- With no buffer attached every buffer command reports an error, but for `CSUM 0, 0` (`10_state.md` R12); `UNPK` and
`PACK` need none (`70_reset_and_hazards.md` R142). -/
def Obligations.WithoutABufferOnlyTheEmptySumSucceeds : Prop :=
  ∀ (i : Instr) (s : State), i.wellFormed = true → s.buflen = 0 →
    ∃ t, exec i s = .next t ∧
      (t.stat = 0 ↔ i = .csum 0 0 ∨ (∃ b sh w, i = .unpk b sh w) ∨
        (∃ b sh w v, i = .pack b sh w v ∧ v.toNat < 2 ^ w.toNat))

/-! ## Relations between the commands -/

/-- `40_checksum.md` R81, for every `ALG`, the engine's own among them: `CSVER` succeeds exactly when the stored byte is
what `CSUM` delivers; it succeeds right after `CSPUT`; and if `ALG` is `Sensitive7`, a change of a body byte in bits 6:0
is then found. -/
def Obligations.VerifyAgreesWithComputeAndPut : Prop :=
  (∀ (pos start len : Off) (s : State),
    exec (.csum start len) s = .next (csumBy Config.alg start len s) ∧
    exec (.csver pos start len) s = .next (csverBy Config.alg pos start len s) ∧
    exec (.csput pos start len) s = .next (csputBy Config.alg pos start len s)) ∧
  ∀ (alg : Alg) (pos start len : Off) (s : State),
    ¬ (start.toNat ≤ pos.toNat ∧ pos.toNat < start.toNat + len.toNat) →
    pos.toNat < s.buflen.toNat → start.toNat + len.toNat ≤ s.buflen.toNat →
    let v := csverBy alg pos start len s
    let u := csumBy alg start len s
    let t := csputBy alg pos start len s
    let v' := csverBy alg pos start len t
    ((v.stat = 0 ∧ v.res = 1) ↔ s.buf.read pos.toNat = u.res) ∧
    (s.buf.read pos.toNat ≠ u.res → v.stat = 2 ∧ v.res = 0) ∧
    (v'.stat = 0 ∧ v'.res = 1) ∧
    (Sensitive7 alg → ∀ (i : Nat) (c : Byte), i < len.toNat →
      c.setWidth 7 ≠ (t.buf.read (start.toNat + i)).setWidth 7 →
      let v'' := csverBy alg pos start len { t with buf := t.buf.write (start.toNat + i) c }
      v''.stat = 2 ∧ v''.res = 0)

/-- `CSPUT` is idempotent: issued twice in a row it leaves the same state as once (`40_checksum.md` R79). -/
def Obligations.CsputIsIdempotent : Prop :=
  ∀ (pos start len : Off) (s t : State),
    exec (.csput pos start len) s = .next t → exec (.csput pos start len) t = .next t

/-- The stale-checksum hazard (`70_reset_and_hazards.md` R146), for every `ALG` that is `Sensitive7`: after `CSPUT`, a
successful `STF` into the body that changes bits 6:0 of a byte makes `CSVER` report `ChecksumMismatch`. -/
def Obligations.StoringIntoTheBodyMakesTheChecksumStale : Prop :=
  ∀ (alg : Alg), Sensitive7 alg →
  ∀ (pos start len off : Off) (sh : Shift) (w : Width) (v : Val) (s u : State),
    (csputBy alg pos start len s).stat = 0 →
    start.toNat ≤ off.toNat → off.toNat < start.toNat + len.toNat →
    exec (.stf off sh w v) (csputBy alg pos start len s) = .next u → u.stat = 0 →
    (u.buf.read off.toNat).setWidth 7 ≠ ((csputBy alg pos start len s).buf.read off.toNat).setWidth 7 →
    csverBy alg pos start len u = { u with res := 0, stat := 2, eoff := pos }

/-- `41_bitfield.md` R101: after a successful `STF`, and as long as `BUF[off]` is not written again, `LDF` of the field
returns the value and `LDF` of a disjoint field what it returned before; after an `LDF` that returned `r`, `STF` of `r`
leaves every byte as it was. -/
def Obligations.LoadAfterStoreOfAField : Prop :=
  ∀ (off : Off) (sh sh₂ : Shift) (w w₂ : Width) (v : Val) (s : State), LegalField sh w → LegalField sh₂ w₂ →
    off.toNat < s.buflen.toNat →
    (v.toNat < 2 ^ w.toNat → ∃ t, exec (.stf off sh w v) s = .next t ∧ t.stat = 0 ∧
      ∀ t' : State, t'.buflen = t.buflen → t'.buf.read off.toNat = t.buf.read off.toNat →
        (∃ l, exec (.ldf off sh w) t' = .next l ∧ l.res.toNat = v.toNat ∧ l.stat = 0) ∧
        ((sh.toNat + w.toNat ≤ sh₂.toNat ∨ sh₂.toNat + w₂.toNat ≤ sh.toNat) →
          ∃ l₀ l₁, exec (.ldf off sh₂ w₂) s = .next l₀ ∧ exec (.ldf off sh₂ w₂) t' = .next l₁ ∧ l₁.res = l₀.res)) ∧
    (∃ l t, exec (.ldf off sh w) s = .next l ∧ l.stat = 0 ∧
      exec (.stf off sh w (l.res.setWidth 16)) l = .next t ∧ t.stat = 0 ∧ ∀ a, t.buf.read a = s.buf.read a)

/-! ## The bit-field functions -/

/-- `41_bitfield.md` R56 and R90: the legal descriptors are 36, counted by width; the mask has ones in the bits of the field
and no others, no one is shifted out, and two descriptors are disjoint exactly when their masks have no common one. -/
def Obligations.DescriptorsAndMasks : Prop :=
  ((List.range 16).map fun w => ((List.range 8).filter fun sh =>
      legalDescriptor (BitVec.ofNat 3 sh) (BitVec.ofNat 4 w)).length) = [0, 8, 7, 6, 5, 4, 3, 2, 1, 0, 0, 0, 0, 0, 0, 0] ∧
  (∀ (sh : Shift) (w : Width), LegalField sh w →
    (fmask sh w).toNat = (2 ^ w.toNat - 1) * 2 ^ sh.toNat ∧
    ∀ i, (fmask sh w).getLsbD i = decide (sh.toNat ≤ i ∧ i < sh.toNat + w.toNat)) ∧
  (∀ (sh sh₂ : Shift) (w w₂ : Width), LegalField sh w → LegalField sh₂ w₂ →
    (fmask sh w &&& fmask sh₂ w₂ = 0 ↔ sh.toNat + w.toNat ≤ sh₂.toNat ∨ sh₂.toNat + w₂.toNat ≤ sh.toNat))

/-- The three forms of `unpack`, its bound, and that bits outside the field do not matter (`41_bitfield.md` R91). -/
def Obligations.UnpackForms : Prop :=
  ∀ (b b' : Byte) (sh : Shift) (w : Width), LegalField sh w →
    unpack b sh w = (b >>> sh.toNat) &&& BitVec.ofNat 8 (2 ^ w.toNat - 1) ∧
    unpack b sh w = (b.extractLsb' sh.toNat w.toNat).setWidth 8 ∧
    unpack b sh w = (b &&& fmask sh w) >>> sh.toNat ∧
    (unpack b sh w).toNat < 2 ^ w.toNat ∧
    (b &&& fmask sh w = b' &&& fmask sh w → unpack b sh w = unpack b' sh w)

/-- The laws (a) to (e) of `41_bitfield.md` R93. -/
def Obligations.PackUnpackLaws : Prop :=
  ∀ (b : Byte) (sh sh₂ : Shift) (w w₂ : Width) (v v' v₂ : Val), LegalField sh w → LegalField sh₂ w₂ →
    v.toNat < 2 ^ w.toNat → v'.toNat < 2 ^ w.toNat → v₂.toNat < 2 ^ w₂.toNat →
    (unpack (pack b sh w v) sh w).toNat = v.toNat ∧
    pack b sh w ((unpack b sh w).setWidth 16) = b ∧
    pack b sh w v &&& ~~~ fmask sh w = b &&& ~~~ fmask sh w ∧
    ((sh.toNat + w.toNat ≤ sh₂.toNat ∨ sh₂.toNat + w₂.toNat ≤ sh.toNat) →
      unpack (pack b sh w v) sh₂ w₂ = unpack b sh₂ w₂ ∧
      pack (pack b sh w v) sh₂ w₂ v₂ = pack (pack b sh₂ w₂ v₂) sh w v) ∧
    pack (pack b sh w v) sh w v' = pack b sh w v'

/-- The fixed-width primitive (`41_bitfield.md` R95). -/
def Obligations.FixedWidthFields : Prop :=
  ∀ (b : Byte) (v : Val),
    unpack b 0 7 = b &&& 0x7F ∧
    (v.toNat < 128 → pack b 0 7 v = (b &&& 0x80) ||| v.setWidth 8) ∧
    (v.toNat < 128 → (pack 0x00 0 7 v).getLsbD 7 = false) ∧
    (v.toNat < 256 → (pack b 0 8 v).toNat = v.toNat)

/-! ## The candidate algorithms -/

/-- `ALG_SUM7_2C` (`40_checksum.md` R74): the low seven bits of all bytes and the checksum sum to 0 modulo 128.
The candidates are the spec's own general knowledge (log 10), here as in the next three. -/
def Obligations.SumCandidateClosesTheSum : Prop :=
  ∀ q : List Byte,
    (compute algSum7TwosComplement q).toNat < 128 ∧
    ((q.map fun b => b.toNat % 128).sum + (compute algSum7TwosComplement q).toNat) % 128 = 0

/-- `ALG_XOR7` (`40_checksum.md` R75): the exclusive-or of the low seven bits of all bytes, in any grouping. -/
def Obligations.XorCandidateIsTheExclusiveOr : Prop :=
  compute algXor7 [] = 0 ∧ (∀ b : Byte, compute algXor7 [b] = b &&& 0x7F) ∧
  ∀ q q' : List Byte, compute algXor7 (q ++ q') = compute algXor7 q ^^^ compute algXor7 q'

/-- `ALG_SUM7_A5` (`40_checksum.md` R76): 0xA5 and the sum of all bytes, modulo 128. -/
def Obligations.SumA5CandidateIsTheOffsetSum : Prop :=
  ∀ q : List Byte, (compute algSum7A5 q).toNat = (0xA5 + (q.map BitVec.toNat).sum) % 128

/-- The three candidates are `MidiSafe` and `Sensitive7`, and none sees a change of bit 7 (`40_checksum.md` R73); as folds
they are so at every length, also beyond the 65535 bytes of R70. -/
def Obligations.CandidatesAreSafeAndSensitive : Prop :=
  ∀ alg : Alg, alg = algSum7TwosComplement ∨ alg = algXor7 ∨ alg = algSum7A5 →
    MidiSafe alg ∧ Sensitive7 alg ∧ (∀ q : List Byte, (compute alg q).toNat ≤ 0x7F) ∧
    ∀ (q : List Byte) (i : Nat) (h : i < q.length) (c : Byte),
      compute alg (q.set i c) = compute alg q ↔ c.setWidth 7 = (q[i]).setWidth 7

/-! ## A whole patch message -/

/-- `20_memory.md` R39 and R40: the regions in wire order, and where the operands of a whole message stand among them.
`HDR_LEN` and `COMMON_LEN` are open and any number here (log 17). -/
def Obligations.FrameOperandsFollowTheRegions : Prop :=
  ∀ hdrLen commonLen sourceCount : Nat,
    let regions := frameRegions hdrLen commonLen sourceCount
    regionStart regions .header = some 0 ∧
    regionStart regions .toneMap = some hdrLen ∧
    regionStart regions .checksum = some (frameAt hdrLen) ∧
    regionStart regions .commonBlock = some (frameStart hdrLen) ∧
    (∀ k, k < sourceCount →
      regionStart regions (.sourceBlock k) = some (frameStart hdrLen + commonLen + 86 * k)) ∧
    regionStart regions .trailer = some (frameStart hdrLen + frameBodyLen commonLen sourceCount) ∧
    regionsLength regions = frameLength hdrLen commonLen sourceCount

/-- Encoding a whole attached message, then verifying it, succeeds, and changes no byte but the stored checksum
(`20_memory.md` R40, `40_checksum.md` R82). -/
def Obligations.EncodedFrameVerifies : Prop :=
  ∀ (hdrLen commonLen sourceCount : Nat) (s : State),
    s.buflen.toNat = frameLength hdrLen commonLen sourceCount →
    ∃ t v, exec (encodeFrame hdrLen commonLen sourceCount) s = .next t ∧ t.stat = 0 ∧
      (∀ a, a ≠ hdrLen + 19 → t.buf.read a = s.buf.read a) ∧
      exec (verifyFrame hdrLen commonLen sourceCount) t = .next v ∧ v.stat = 0 ∧ v.res = 1

/-- The same when the buffer is what the Frame Envelope calls `bodyBytes` (`20_memory.md` R41). -/
def Obligations.EncodedUnwrappedBodyVerifies : Prop :=
  ∀ s : State, 20 ≤ s.buflen.toNat →
    ∃ t v, exec (encodeUnwrapped s.buflen) s = .next t ∧ t.stat = 0 ∧
      (∀ a, a ≠ 19 → t.buf.read a = s.buf.read a) ∧
      exec (verifyUnwrapped s.buflen) t = .next v ∧ v.stat = 0 ∧ v.res = 1

/-! ## The registers the host can read -/

/-- The host can read `BUFLEN`, `RES`, `STAT` and `EOFF` in every state, with a session open or not, and nothing of the engine
changes (`60_exceptions.md` R126, `10_state.md` section 4). The reply added to `replies`, its 16 bits and the event taken
are THE MODEL'S form of it (logs 3, 20). -/
def Obligations.HostReadsEveryRegister : Prop :=
  ∀ (s : State) (r : HostRegister) (es : List HostEvent), s.events = .readRegister r :: es →
    ∃ value : Off, step s = .next { s with events := es, replies := s.replies ++ [.register r value] } ∧
      (r = .buflen → value = s.buflen) ∧
      (r = .res → value.toNat = s.res.toNat) ∧
      (r = .stat → value.toNat = s.stat.toNat) ∧
      (r = .eoff → value = s.eoff)
end

