-- ==== Sys2Proof/Laws/Algorithms.lean ====
section
/-! SUPPORT. The three candidates as folds over 7-bit values, and what such a fold adds up (`40_checksum.md` R72, R74 to
R76). -/

namespace Sys2Proof.Machine

theorem compute_sum7TwosComplement (q : List Byte) :
    compute algSum7TwosComplement q = negate7Fin (q.foldl sum7Step 0) := rfl

theorem compute_xor7 (q : List Byte) : compute algXor7 q = extend7Fin (q.foldl xor7Step 0) := rfl

theorem compute_sum7A5 (q : List Byte) : compute algSum7A5 q = extend7Fin (q.foldl sum7Step 0x25) := rfl

theorem toNat_sum7Step (acc : BitVec 7) (b : Byte) : (sum7Step acc b).toNat = (acc.toNat + b.toNat % 128) % 128 := by
  rw [sum7Step, BitVec.toNat_ofNat, BitVec.toNat_setWidth]
  omega

theorem toNat_extend7Fin (acc : BitVec 7) : (extend7Fin acc).toNat = acc.toNat := by
  rw [extend7Fin, BitVec.toNat_setWidth]
  have := acc.isLt
  omega

theorem toNat_negate7Fin (acc : BitVec 7) : (negate7Fin acc).toNat = (128 - acc.toNat) % 128 := by
  rw [negate7Fin, BitVec.toNat_ofNat]
  omega

/-- The fold of the two sums adds up the low seven bits modulo 128. -/
theorem toNat_foldl_sum7Step (q : List Byte) (acc : BitVec 7) :
    (q.foldl sum7Step acc).toNat = (acc.toNat + (q.map fun b => b.toNat % 128).sum) % 128 := by
  induction q generalizing acc with
  | nil =>
    have := acc.isLt
    simp only [List.foldl_nil, List.map_nil, List.sum_nil]
    omega
  | cons b q ih =>
    rw [List.foldl_cons, ih, toNat_sum7Step]
    simp only [List.map_cons, List.sum_cons]
    omega

/-- The fold of the exclusive-or may start from 0 and take the start value in later. -/
theorem foldl_xor7Step (q : List Byte) (acc : BitVec 7) :
    q.foldl xor7Step acc = acc ^^^ q.foldl xor7Step 0 := by
  induction q generalizing acc with
  | nil => simp
  | cons b q ih =>
    rw [List.foldl_cons, List.foldl_cons, ih, ih (xor7Step 0 b)]
    simp [xor7Step, BitVec.xor_assoc]

/-- The exclusive-or candidate is `Sensitive7` (`40_checksum.md` R73): the named property is one that some `ALG` has. -/
theorem sensitive7_algXor7 : Sensitive7 algXor7 := by
  intro q i h c _ hne he
  have hq : q = q.take i ++ q[i] :: q.drop (i + 1) := by simp
  rw [compute_xor7, compute_xor7, List.set_eq_take_append_cons_drop, if_pos h] at he
  have he := BitVec.eq_of_toNat_eq
    ((toNat_extend7Fin _).symm.trans ((congrArg BitVec.toNat he).trans (toNat_extend7Fin _)))
  conv at he => rhs; rw [hq]
  rw [List.foldl_append, List.foldl_append, List.foldl_cons, List.foldl_cons, foldl_xor7Step (q.drop (i + 1)),
    foldl_xor7Step (q.drop (i + 1)) (xor7Step _ q[i])] at he
  exact hne ((BitVec.xor_right_inj _).mp ((BitVec.xor_left_inj _).mp he))

end Sys2Proof.Machine
end

