-- ==== Sys2Proof/Laws/Bits.lean ====
section
/-! SUPPORT. The bit-field functions bit by bit (`41_bitfield.md` R90 to R92), which their laws rest on. -/

namespace Sys2Proof.Machine

theorem getLsbD_lowMask (w : Width) (i : Nat) : (lowMask w).getLsbD i = decide (i < 8 ∧ i < w.toNat) := by
  rw [lowMask, BitVec.getLsbD_ofNat, Nat.testBit_two_pow_sub_one, Bool.decide_and]

/-- `fmask(s, w)` has ones in bits `s + w - 1` down to `s` (R90). -/
theorem getLsbD_fmask (s : Shift) (w : Width) (i : Nat) :
    (fmask s w).getLsbD i = decide (i < 8 ∧ s.toNat ≤ i ∧ i < s.toNat + w.toNat) := by
  rw [fmask, BitVec.getLsbD_shiftLeft, getLsbD_lowMask, Bool.eq_iff_iff]
  simp only [Bool.and_eq_true, Bool.not_eq_true', decide_eq_true_eq, decide_eq_false_iff_not]
  omega

/-- Bit `i` of the unpacked field is bit `s + i` of the byte, below the width (R91). -/
theorem getLsbD_unpack (b : Byte) (s : Shift) (w : Width) (i : Nat) :
    (unpack b s w).getLsbD i = (b.getLsbD (s.toNat + i) && decide (i < 8 ∧ i < w.toNat)) := by
  rw [unpack, BitVec.getLsbD_and, BitVec.getLsbD_ushiftRight, getLsbD_lowMask]

/-- The bits of a packed byte: the value above the shift where the field is, the old byte elsewhere (R92). -/
theorem getLsbD_pack (b : Byte) (s : Shift) (w : Width) (v : Val) (i : Nat) :
    (pack b s w v).getLsbD i =
      (decide (i < 8) && ((b.getLsbD i && !decide (s.toNat ≤ i ∧ i < s.toNat + w.toNat)) ||
        (decide (s.toNat ≤ i) && v.getLsbD (i - s.toNat)))) := by
  rw [pack, BitVec.getLsbD_or, BitVec.getLsbD_and, BitVec.getLsbD_not, getLsbD_fmask, BitVec.getLsbD_shiftLeft,
    BitVec.getLsbD_setWidth, Bool.eq_iff_iff]
  by_cases h8 : i < 8
  · by_cases hs : s.toNat ≤ i
    · simp [h8, hs, show i - s.toNat < 8 by omega, Nat.not_lt.mpr hs]
    · simp [h8, hs, Nat.lt_of_not_le hs]
  · simp [h8]

/-- A value that fits `w` bits has no bit from `w` up. -/
theorem getLsbD_of_fits (v : Val) (w : Width) (h : v.toNat < 2 ^ w.toNat) (i : Nat) (hi : w.toNat ≤ i) :
    v.getLsbD i = false := by
  rw [BitVec.getLsbD]
  exact Nat.testBit_lt_two_pow (lt_of_lt_of_le h (Nat.pow_le_pow_right (by decide) hi))

/-- Inside the field a packed byte holds the value. -/
theorem getLsbD_pack_inside (b : Byte) (s : Shift) (w : Width) (v : Val) (i : Nat) (h8 : i < 8)
    (hs : s.toNat ≤ i) (hw : i < s.toNat + w.toNat) : (pack b s w v).getLsbD i = v.getLsbD (i - s.toNat) := by
  rw [getLsbD_pack]
  simp [h8, hs, hw]

/-- Outside the field a packed byte is the old byte, when the value fits (R92). -/
theorem getLsbD_pack_outside (b : Byte) (s : Shift) (w : Width) (v : Val) (hv : v.toNat < 2 ^ w.toNat) (i : Nat)
    (h : i < s.toNat ∨ s.toNat + w.toNat ≤ i) : (pack b s w v).getLsbD i = b.getLsbD i := by
  by_cases h8 : i < 8
  · by_cases hs : s.toNat ≤ i
    · have hwi : s.toNat + w.toNat ≤ i := by omega
      rw [getLsbD_pack]
      simp [h8, hs, Nat.not_lt.mpr hwi, getLsbD_of_fits v w hv (i - s.toNat) (by omega)]
    · rw [getLsbD_pack]
      simp [h8, hs]
  · rw [getLsbD_pack, BitVec.getLsbD_of_ge b i (by omega)]
    simp [h8]

/-- Both at once: the bits of a packed byte when the value fits (R92). -/
theorem getLsbD_pack_of_fits (b : Byte) (s : Shift) (w : Width) (v : Val) (hv : v.toNat < 2 ^ w.toNat) (i : Nat)
    (hi : i < 8) : (pack b s w v).getLsbD i =
      if s.toNat ≤ i ∧ i < s.toNat + w.toNat then v.getLsbD (i - s.toNat) else b.getLsbD i := by
  split
  · exact getLsbD_pack_inside _ _ _ _ _ hi (by omega) (by omega)
  · exact getLsbD_pack_outside _ _ _ _ hv _ (by omega)

/-- `unpack` as a number: divide by `2^s`, keep `w` bits (R91). -/
theorem unpack_eq_ofNat (b : Byte) (s : Shift) (w : Width) :
    unpack b s w = BitVec.ofNat 8 (b.toNat / 2 ^ s.toNat % 2 ^ w.toNat) := by
  apply BitVec.eq_of_getLsbD_eq
  intro i hi
  rw [getLsbD_unpack, BitVec.getLsbD_ofNat, Nat.testBit_mod_two_pow, Nat.testBit_div_two_pow]
  simp [hi, BitVec.getLsbD, Nat.add_comm, Bool.and_comm]

theorem legalDescriptor_iff (s : Shift) (w : Width) :
    legalDescriptor s w = true ↔ 1 ≤ w.toNat ∧ w.toNat ≤ 8 ∧ s.toNat + w.toNat ≤ 8 := decide_eq_true_iff

theorem fitsWidth_iff (v : Val) (w : Width) : fitsWidth v w = true ↔ v.toNat < 2 ^ w.toNat := decide_eq_true_iff

theorem insideRange_iff (pos start len : Off) :
    insideRange pos start len = true ↔ start.toNat ≤ pos.toNat ∧ pos.toNat < start.toNat + len.toNat :=
  decide_eq_true_iff

theorem rangeInBounds_iff (n start len : Off) :
    rangeInBounds n start len = true ↔ start.toNat + len.toNat ≤ n.toNat := decide_eq_true_iff

theorem offInBounds_iff (n o : Off) : offInBounds n o = true ↔ o.toNat < n.toNat := decide_eq_true_iff

end Sys2Proof.Machine
end

