-- ==== Sys2Proof/Laws/Memory.lean ====
section
/-! SUPPORT. The laws of the buffer: read after write, the canonical form is kept, and what an attached byte sequence
reads as. -/

namespace Sys2Proof.Machine

@[simp] theorem read_nil (o : Nat) : Memory.read [] o = Memory.unlisted := rfl

theorem read_cons (a : Nat) (b : Byte) (m : Memory) (o : Nat) :
    Memory.read ((a, b) :: m) o = if a = o then b else Memory.read m o := rfl

/-- An offset that no pair lists reads as the unlisted byte. -/
theorem read_of_not_listed (m : Memory) (o : Nat) (h : ∀ c ∈ m, c.1 ≠ o) : Memory.read m o = Memory.unlisted := by
  induction m with
  | nil => rfl
  | cons c m ih =>
    obtain ⟨a, b⟩ := c
    rw [read_cons, if_neg (h (a, b) List.mem_cons_self)]
    exact ih fun c hc => h c (List.mem_cons_of_mem _ hc)

theorem read_filter_other (m : Memory) (o a : Nat) (h : a ≠ o) :
    Memory.read (m.filter fun c => decide (c.1 ≠ o)) a = Memory.read m a := by
  induction m with
  | nil => rfl
  | cons c m ih =>
    obtain ⟨x, b⟩ := c
    by_cases hx : x = o
    · have hxa : x ≠ a := fun e => h (e.symm.trans hx)
      simp only [hx, ne_eq, not_true_eq_false, decide_false, Bool.false_eq_true, not_false_eq_true,
        List.filter_cons_of_neg, read_cons] at ih ⊢
      rw [if_neg (fun e => h e.symm)]
      exact ih
    · simp only [ne_eq, hx, not_false_eq_true, decide_true, List.filter_cons_of_pos, read_cons] at ih ⊢
      rw [ih]

theorem read_insertCell_other (m : Memory) (o a : Nat) (b : Byte) (h : a ≠ o) :
    Memory.read (Memory.insertCell m o b) a = Memory.read m a := by
  induction m with
  | nil =>
    unfold Memory.insertCell
    split
    · rfl
    · simp [read_cons, Ne.symm h]
  | cons c m ih =>
    obtain ⟨x, d⟩ := c
    unfold Memory.insertCell
    split
    · simp [read_cons, ih]
    · split
      · rfl
      · rw [read_cons, if_neg (Ne.symm h)]

theorem read_insertCell_self (m : Memory) (o : Nat) (b : Byte) (h : ∀ c ∈ m, c.1 ≠ o) :
    Memory.read (Memory.insertCell m o b) o = b := by
  induction m with
  | nil =>
    unfold Memory.insertCell
    split
    · simp_all
    · simp [read_cons]
  | cons c m ih =>
    obtain ⟨x, d⟩ := c
    have hx : x ≠ o := h (x, d) List.mem_cons_self
    have hm : ∀ c ∈ m, c.1 ≠ o := fun c hc => h c (List.mem_cons_of_mem _ hc)
    unfold Memory.insertCell
    split
    · simp [read_cons, hx, ih hm]
    · split
      · rw [read_cons, if_neg hx, read_of_not_listed m o hm, ‹b = Memory.unlisted›]
      · simp [read_cons]

/-- A read after a write to the same offset gives the byte written (`20_memory.md` R32), whatever the list. -/
@[simp] theorem read_write_self (m : Memory) (o : Nat) (b : Byte) : (m.write o b).read o = b :=
  read_insertCell_self _ o b fun c hc => by simpa using (List.mem_filter.mp hc).2

/-- A write leaves every other offset alone (R32), whatever the list. -/
theorem read_write_other (m : Memory) (o a : Nat) (b : Byte) (h : a ≠ o) : (m.write o b).read a = m.read a := by
  unfold Memory.write
  rw [read_insertCell_other _ _ _ _ h, read_filter_other _ _ _ h]

/-- Both cases of R32 at once. -/
theorem read_write (m : Memory) (o a : Nat) (b : Byte) :
    (m.write o b).read a = if a = o then b else m.read a := by
  by_cases h : a = o
  · rw [if_pos h, h, read_write_self]
  · rw [if_neg h, read_write_other _ _ _ _ h]

theorem wf_cons (a : Nat) (b : Byte) (m : Memory) :
    Memory.wf ((a, b) :: m) = true ↔ b ≠ Memory.unlisted ∧ (∀ c ∈ m, a < c.1) ∧ Memory.wf m = true := by
  simp [Memory.wf, and_assoc]

theorem mem_insertCell (m : Memory) (o : Nat) (b : Byte) (c : Host.Cell) (h : c ∈ Memory.insertCell m o b) :
    c = (o, b) ∨ c ∈ m := by
  induction m with
  | nil =>
    unfold Memory.insertCell at h
    split at h <;> simp_all
  | cons d m ih =>
    obtain ⟨x, e⟩ := d
    unfold Memory.insertCell at h
    split at h
    · rcases List.mem_cons.mp h with rfl | h
      · exact .inr List.mem_cons_self
      · exact (ih h).imp_right (List.mem_cons_of_mem _)
    · split at h
      · exact .inr h
      · exact List.mem_cons.mp h

theorem wf_insertCell (m : Memory) (o : Nat) (b : Byte) (hwf : Memory.wf m = true) (h : ∀ c ∈ m, c.1 ≠ o) :
    Memory.wf (Memory.insertCell m o b) = true := by
  induction m with
  | nil =>
    unfold Memory.insertCell
    split
    · rfl
    · simp_all [Memory.wf]
  | cons d m ih =>
    obtain ⟨x, e⟩ := d
    obtain ⟨he, hlt, hm⟩ := (wf_cons x e m).mp hwf
    have hx : x ≠ o := h (x, e) List.mem_cons_self
    have hrest : ∀ c ∈ m, c.1 ≠ o := fun c hc => h c (List.mem_cons_of_mem _ hc)
    unfold Memory.insertCell
    split
    · next hxo =>
      refine (wf_cons _ _ _).mpr ⟨he, fun c hc => ?_, ih hm hrest⟩
      rcases mem_insertCell m o b c hc with rfl | hc
      · exact hxo
      · exact hlt c hc
    · split
      · exact hwf
      · next hxo hb =>
        refine (wf_cons _ _ _).mpr ⟨hb, fun c hc => ?_, hwf⟩
        rcases List.mem_cons.mp hc with rfl | hc
        · exact lt_of_le_of_ne (Nat.le_of_not_lt hxo) (Ne.symm hx)
        · exact lt_of_le_of_lt (Nat.le_of_not_lt hxo) (hlt c hc)

theorem wf_filter (m : Memory) (p : Host.Cell → Bool) (h : Memory.wf m = true) : Memory.wf (m.filter p) = true := by
  induction m with
  | nil => rfl
  | cons d m ih =>
    obtain ⟨x, e⟩ := d
    obtain ⟨he, hlt, hm⟩ := (wf_cons x e m).mp h
    rw [List.filter_cons]
    split
    · exact (wf_cons _ _ _).mpr ⟨he, fun c hc => hlt c (List.mem_filter.mp hc).1, ih hm⟩
    · exact ih hm

/-- A write keeps the canonical form. -/
theorem wf_write (m : Memory) (o : Nat) (b : Byte) (h : Memory.wf m = true) : Memory.wf (m.write o b) = true :=
  wf_insertCell _ o b (wf_filter m _ h) fun c hc => by simpa using (List.mem_filter.mp hc).2

/-- What a write lists: the pair written, or a pair that was there. -/
theorem mem_write (m : Memory) (o : Nat) (b : Byte) (c : Host.Cell) (h : c ∈ m.write o b) : c = (o, b) ∨ c ∈ m :=
  (mem_insertCell _ o b c h).imp_right fun h => (List.mem_filter.mp h).1

theorem mem_ofBytes (o : Nat) (bs : List Byte) (c : Host.Cell) (h : c ∈ Memory.ofBytes o bs) :
    o ≤ c.1 ∧ c.1 < o + bs.length := by
  induction bs generalizing o with
  | nil => simp [Memory.ofBytes] at h
  | cons b bs ih =>
    unfold Memory.ofBytes at h
    split at h
    · have := ih (o + 1) h
      simp only [List.length_cons]
      omega
    · rcases List.mem_cons.mp h with rfl | h
      · simp
      · have := ih (o + 1) h
        simp only [List.length_cons]
        omega

/-- An attached byte sequence is in the canonical form. -/
theorem wf_ofBytes (o : Nat) (bs : List Byte) : Memory.wf (Memory.ofBytes o bs) = true := by
  induction bs generalizing o with
  | nil => rfl
  | cons b bs ih =>
    unfold Memory.ofBytes
    split
    · exact ih _
    · next hb => exact (wf_cons _ _ _).mpr ⟨hb, fun c hc => by have := mem_ofBytes _ _ c hc; omega, ih _⟩

/-- An attached byte sequence reads back byte for byte (`60_exceptions.md` R128). -/
theorem read_ofBytes (o : Nat) (bs : List Byte) (i : Nat) (h : i < bs.length) :
    Memory.read (Memory.ofBytes o bs) (o + i) = bs[i] := by
  induction bs generalizing o i with
  | nil => simp at h
  | cons b bs ih =>
    unfold Memory.ofBytes
    cases i with
    | zero =>
      split
      · next hb =>
        rw [Nat.add_zero, read_of_not_listed _ _ fun c hc => by have := mem_ofBytes _ _ c hc; omega]
        simp [hb]
      · simp [read_cons]
    | succ i =>
      have hrec := ih (o + 1) i (by simpa using h)
      rw [show o + 1 + i = o + (i + 1) by omega] at hrec
      split
      · simpa using hrec
      · rw [read_cons, if_neg (by omega)]
        simpa using hrec

theorem filter_insertCell (m : Memory) (o : Nat) (b : Byte) (h : ∀ c ∈ m, c.1 ≠ o) :
    (Memory.insertCell m o b).filter (fun c => decide (c.1 ≠ o)) = m := by
  induction m with
  | nil =>
    unfold Memory.insertCell
    split <;> simp
  | cons d m ih =>
    obtain ⟨x, e⟩ := d
    have hx : x ≠ o := h (x, e) List.mem_cons_self
    have hm : ∀ c ∈ m, c.1 ≠ o := fun c hc => h c (List.mem_cons_of_mem _ hc)
    have hf : m.filter (fun c => decide (c.1 ≠ o)) = m :=
      List.filter_eq_self.mpr fun c hc => by simpa using hm c hc
    unfold Memory.insertCell
    split
    · rw [List.filter_cons, if_pos (by simpa using hx), ih hm]
    · split
      · rw [List.filter_cons, if_pos (by simpa using hx), hf]
      · rw [List.filter_cons, if_neg (by simp), List.filter_cons, if_pos (by simpa using hx), hf]

/-- The later of two writes to one offset is the only one left, as data, whatever the list. -/
theorem write_write (m : Memory) (o : Nat) (b c : Byte) : (m.write o b).write o c = m.write o c := by
  unfold Memory.write
  rw [filter_insertCell _ _ _ fun c hc => by simpa using (List.mem_filter.mp hc).2]

end Sys2Proof.Machine
end

