-- ==== Sys2Proof/Laws/State.lean ====
section
/-! SUPPORT. One lemma per field per update of the state, so that no proof unfolds a record update. -/

namespace Sys2Proof.Machine

@[simp] theorem respond_buf (s : State) (r : Byte) (c : ReportClass) (e : Off) : (s.respond r c e).buf = s.buf := rfl
@[simp] theorem respond_buflen (s : State) (r : Byte) (c : ReportClass) (e : Off) : (s.respond r c e).buflen = s.buflen := rfl
@[simp] theorem respond_res (s : State) (r : Byte) (c : ReportClass) (e : Off) : (s.respond r c e).res = r := rfl
@[simp] theorem respond_stat (s : State) (r : Byte) (c : ReportClass) (e : Off) : (s.respond r c e).stat = c.stat := rfl
@[simp] theorem respond_eoff (s : State) (r : Byte) (c : ReportClass) (e : Off) : (s.respond r c e).eoff = e := rfl
@[simp] theorem respond_sessionOpen (s : State) (r : Byte) (c : ReportClass) (e : Off) : (s.respond r c e).sessionOpen = s.sessionOpen := rfl
@[simp] theorem respond_events (s : State) (r : Byte) (c : ReportClass) (e : Off) : (s.respond r c e).events = s.events := rfl
@[simp] theorem respond_replies (s : State) (r : Byte) (c : ReportClass) (e : Off) : (s.respond r c e).replies = s.replies := rfl

@[simp] theorem done_buf (s : State) (r : Byte) : (s.done r).buf = s.buf := rfl
@[simp] theorem done_buflen (s : State) (r : Byte) : (s.done r).buflen = s.buflen := rfl
@[simp] theorem done_res (s : State) (r : Byte) : (s.done r).res = r := rfl
@[simp] theorem done_stat (s : State) (r : Byte) : (s.done r).stat = 0 := rfl
@[simp] theorem done_eoff (s : State) (r : Byte) : (s.done r).eoff = 0 := rfl
@[simp] theorem done_sessionOpen (s : State) (r : Byte) : (s.done r).sessionOpen = s.sessionOpen := rfl
@[simp] theorem done_events (s : State) (r : Byte) : (s.done r).events = s.events := rfl
@[simp] theorem done_replies (s : State) (r : Byte) : (s.done r).replies = s.replies := rfl

@[simp] theorem raise_buf (s : State) (c : ReportClass) (e : Off) : (s.raise c e).buf = s.buf := rfl
@[simp] theorem raise_buflen (s : State) (c : ReportClass) (e : Off) : (s.raise c e).buflen = s.buflen := rfl
@[simp] theorem raise_res (s : State) (c : ReportClass) (e : Off) : (s.raise c e).res = 0 := rfl
@[simp] theorem raise_stat (s : State) (c : ReportClass) (e : Off) : (s.raise c e).stat = c.stat := rfl
@[simp] theorem raise_eoff (s : State) (c : ReportClass) (e : Off) : (s.raise c e).eoff = e := rfl
@[simp] theorem raise_sessionOpen (s : State) (c : ReportClass) (e : Off) : (s.raise c e).sessionOpen = s.sessionOpen := rfl
@[simp] theorem raise_events (s : State) (c : ReportClass) (e : Off) : (s.raise c e).events = s.events := rfl
@[simp] theorem raise_replies (s : State) (c : ReportClass) (e : Off) : (s.raise c e).replies = s.replies := rfl

@[simp] theorem memWrite_buf (s : State) (o : Nat) (b : Byte) : (s.memWrite o b).buf = s.buf.write o b := rfl
@[simp] theorem memWrite_buflen (s : State) (o : Nat) (b : Byte) : (s.memWrite o b).buflen = s.buflen := rfl
@[simp] theorem memWrite_res (s : State) (o : Nat) (b : Byte) : (s.memWrite o b).res = s.res := rfl
@[simp] theorem memWrite_stat (s : State) (o : Nat) (b : Byte) : (s.memWrite o b).stat = s.stat := rfl
@[simp] theorem memWrite_eoff (s : State) (o : Nat) (b : Byte) : (s.memWrite o b).eoff = s.eoff := rfl
@[simp] theorem memWrite_sessionOpen (s : State) (o : Nat) (b : Byte) : (s.memWrite o b).sessionOpen = s.sessionOpen := rfl
@[simp] theorem memWrite_events (s : State) (o : Nat) (b : Byte) : (s.memWrite o b).events = s.events := rfl
@[simp] theorem memWrite_replies (s : State) (o : Nat) (b : Byte) : (s.memWrite o b).replies = s.replies := rfl

@[simp] theorem attached_buf (s : State) (bytes : List Byte) : (s.attached bytes).buf = Memory.ofBytes 0 bytes := rfl
@[simp] theorem attached_buflen (s : State) (bytes : List Byte) : (s.attached bytes).buflen = BitVec.ofNat 16 bytes.length := rfl
@[simp] theorem attached_res (s : State) (bytes : List Byte) : (s.attached bytes).res = s.res := rfl
@[simp] theorem attached_stat (s : State) (bytes : List Byte) : (s.attached bytes).stat = s.stat := rfl
@[simp] theorem attached_eoff (s : State) (bytes : List Byte) : (s.attached bytes).eoff = s.eoff := rfl
@[simp] theorem attached_sessionOpen (s : State) (bytes : List Byte) : (s.attached bytes).sessionOpen = true := rfl
@[simp] theorem attached_events (s : State) (bytes : List Byte) : (s.attached bytes).events = s.events := rfl
@[simp] theorem attached_replies (s : State) (bytes : List Byte) : (s.attached bytes).replies = s.replies := rfl

@[simp] theorem unattached_buf (s : State) : (s.unattached).buf = [] := rfl
@[simp] theorem unattached_buflen (s : State) : (s.unattached).buflen = 0 := rfl
@[simp] theorem unattached_res (s : State) : (s.unattached).res = s.res := rfl
@[simp] theorem unattached_stat (s : State) : (s.unattached).stat = s.stat := rfl
@[simp] theorem unattached_eoff (s : State) : (s.unattached).eoff = s.eoff := rfl
@[simp] theorem unattached_sessionOpen (s : State) : (s.unattached).sessionOpen = false := rfl
@[simp] theorem unattached_events (s : State) : (s.unattached).events = s.events := rfl
@[simp] theorem unattached_replies (s : State) : (s.unattached).replies = s.replies := rfl

@[simp] theorem reply_buf (s : State) (r : HostReply) : (s.reply r).buf = s.buf := rfl
@[simp] theorem reply_buflen (s : State) (r : HostReply) : (s.reply r).buflen = s.buflen := rfl
@[simp] theorem reply_res (s : State) (r : HostReply) : (s.reply r).res = s.res := rfl
@[simp] theorem reply_stat (s : State) (r : HostReply) : (s.reply r).stat = s.stat := rfl
@[simp] theorem reply_eoff (s : State) (r : HostReply) : (s.reply r).eoff = s.eoff := rfl
@[simp] theorem reply_sessionOpen (s : State) (r : HostReply) : (s.reply r).sessionOpen = s.sessionOpen := rfl
@[simp] theorem reply_events (s : State) (r : HostReply) : (s.reply r).events = s.events := rfl
@[simp] theorem reply_replies (s : State) (r : HostReply) : (s.reply r).replies = s.replies ++ [r] := rfl

@[simp] theorem withEvents_buf (s : State) (es : List HostEvent) : (s.withEvents es).buf = s.buf := rfl
@[simp] theorem withEvents_buflen (s : State) (es : List HostEvent) : (s.withEvents es).buflen = s.buflen := rfl
@[simp] theorem withEvents_res (s : State) (es : List HostEvent) : (s.withEvents es).res = s.res := rfl
@[simp] theorem withEvents_stat (s : State) (es : List HostEvent) : (s.withEvents es).stat = s.stat := rfl
@[simp] theorem withEvents_eoff (s : State) (es : List HostEvent) : (s.withEvents es).eoff = s.eoff := rfl
@[simp] theorem withEvents_sessionOpen (s : State) (es : List HostEvent) : (s.withEvents es).sessionOpen = s.sessionOpen := rfl
@[simp] theorem withEvents_events (s : State) (es : List HostEvent) : (s.withEvents es).events = es := rfl
@[simp] theorem withEvents_replies (s : State) (es : List HostEvent) : (s.withEvents es).replies = s.replies := rfl

@[simp] theorem issueNext_buf (s : State) (cw : CmdWord) : (s.issueNext cw).buf = s.buf := rfl
@[simp] theorem issueNext_buflen (s : State) (cw : CmdWord) : (s.issueNext cw).buflen = s.buflen := rfl
@[simp] theorem issueNext_res (s : State) (cw : CmdWord) : (s.issueNext cw).res = s.res := rfl
@[simp] theorem issueNext_stat (s : State) (cw : CmdWord) : (s.issueNext cw).stat = s.stat := rfl
@[simp] theorem issueNext_eoff (s : State) (cw : CmdWord) : (s.issueNext cw).eoff = s.eoff := rfl
@[simp] theorem issueNext_sessionOpen (s : State) (cw : CmdWord) : (s.issueNext cw).sessionOpen = s.sessionOpen := rfl
@[simp] theorem issueNext_events (s : State) (cw : CmdWord) : (s.issueNext cw).events = .issue cw :: s.events := rfl
@[simp] theorem issueNext_replies (s : State) (cw : CmdWord) : (s.issueNext cw).replies = s.replies := rfl

@[simp] theorem resetEngine_buf (s : State) : (resetEngine s).buf = [] := rfl
@[simp] theorem resetEngine_buflen (s : State) : (resetEngine s).buflen = 0 := rfl
@[simp] theorem resetEngine_res (s : State) : (resetEngine s).res = 0 := rfl
@[simp] theorem resetEngine_stat (s : State) : (resetEngine s).stat = 0 := rfl
@[simp] theorem resetEngine_eoff (s : State) : (resetEngine s).eoff = 0 := rfl
@[simp] theorem resetEngine_sessionOpen (s : State) : (resetEngine s).sessionOpen = false := rfl
@[simp] theorem resetEngine_events (s : State) : (resetEngine s).events = s.events := rfl
@[simp] theorem resetEngine_replies (s : State) : (resetEngine s).replies = s.replies := rfl

@[simp] theorem observeReport_buf (s : State) : (observeReport s).buf = s.buf := rfl
@[simp] theorem observeReport_buflen (s : State) : (observeReport s).buflen = s.buflen := rfl
@[simp] theorem observeReport_res (s : State) : (observeReport s).res = s.res := rfl
@[simp] theorem observeReport_stat (s : State) : (observeReport s).stat = s.stat := rfl
@[simp] theorem observeReport_eoff (s : State) : (observeReport s).eoff = s.eoff := rfl
@[simp] theorem observeReport_sessionOpen (s : State) : (observeReport s).sessionOpen = s.sessionOpen := rfl
@[simp] theorem observeReport_events (s : State) : (observeReport s).events = s.events := rfl
@[simp] theorem observeReport_replies (s : State) : (observeReport s).replies = s.replies ++ [.report s.res s.stat s.eoff] := rfl

@[simp] theorem registerValue_buflen (s : State) : s.registerValue .buflen = s.buflen := rfl
@[simp] theorem registerValue_res (s : State) : s.registerValue .res = s.res.setWidth 16 := rfl
@[simp] theorem registerValue_stat (s : State) : s.registerValue .stat = s.stat.setWidth 16 := rfl
@[simp] theorem registerValue_eoff (s : State) : s.registerValue .eoff = s.eoff := rfl

@[simp] theorem readRegister_buf (r : HostRegister) (s : State) : (readRegister r s).buf = s.buf := rfl
@[simp] theorem readRegister_buflen (r : HostRegister) (s : State) : (readRegister r s).buflen = s.buflen := rfl
@[simp] theorem readRegister_res (r : HostRegister) (s : State) : (readRegister r s).res = s.res := rfl
@[simp] theorem readRegister_stat (r : HostRegister) (s : State) : (readRegister r s).stat = s.stat := rfl
@[simp] theorem readRegister_eoff (r : HostRegister) (s : State) : (readRegister r s).eoff = s.eoff := rfl
@[simp] theorem readRegister_sessionOpen (r : HostRegister) (s : State) : (readRegister r s).sessionOpen = s.sessionOpen := rfl
@[simp] theorem readRegister_events (r : HostRegister) (s : State) : (readRegister r s).events = s.events := rfl
@[simp] theorem readRegister_replies (r : HostRegister) (s : State) :
    (readRegister r s).replies = s.replies ++ [.register r (s.registerValue r)] := rfl

@[simp] theorem detachBuffer_buf (s : State) : (detachBuffer s).buf = [] := rfl
@[simp] theorem detachBuffer_buflen (s : State) : (detachBuffer s).buflen = 0 := rfl
@[simp] theorem detachBuffer_res (s : State) : (detachBuffer s).res = s.res := rfl
@[simp] theorem detachBuffer_stat (s : State) : (detachBuffer s).stat = s.stat := rfl
@[simp] theorem detachBuffer_eoff (s : State) : (detachBuffer s).eoff = s.eoff := rfl
@[simp] theorem detachBuffer_sessionOpen (s : State) : (detachBuffer s).sessionOpen = false := rfl
@[simp] theorem detachBuffer_events (s : State) : (detachBuffer s).events = s.events := rfl
@[simp] theorem detachBuffer_replies (s : State) : (detachBuffer s).replies = s.replies ++ [.bytes s.bufBytes] := rfl

/-- Reading a byte of a state is reading its buffer. -/
theorem memRead_eq (s : State) (o : Nat) : s.memRead o = s.buf.read o := rfl

/-- Taking the host's events apart and putting them back changes nothing. -/
@[simp] theorem withEvents_events_self (s : State) : s.withEvents s.events = s := rfl

@[simp] theorem withEvents_withEvents (s : State) (es es' : List HostEvent) :
    (s.withEvents es).withEvents es' = s.withEvents es' := rfl

end Sys2Proof.Machine
end

