-- ==== Sys2Proof/Laws/Commands.lean ====
section
/-! SUPPORT. What each shared operation and each command can do, said once: the cases of the three checksum commands, the
shape of every command's next state, and the one step of the machine. -/

namespace Sys2Proof.Machine

/-- The bytes of a range are the ones the buffer holds there (`40_checksum.md` R72). -/
theorem rangeBytes_eq_of_holdsAt (s : State) (start : Nat) (q : List Byte) (h : s.HoldsAt start q) :
    s.rangeBytes start q.length = q := by
  apply List.ext_getElem
  · simp [State.rangeBytes]
  · intro i _ hi
    simpa [State.rangeBytes, State.memRead] using h i hi

@[simp] theorem length_rangeBytes (s : State) (start len : Nat) : (s.rangeBytes start len).length = len := by
  simp [State.rangeBytes]

/-- A range named by a command is never longer than the domain of `compute` (`40_checksum.md` R70). -/
theorem length_rangeBytes_le_maxBuf (s : State) (start : Nat) (len : Off) :
    (s.rangeBytes start len.toNat).length ≤ Config.maxBuf := by
  rw [length_rangeBytes]
  exact Nat.le_of_lt_succ len.isLt

theorem getElem_rangeBytes (s : State) (start len i : Nat) (h : i < (s.rangeBytes start len).length) :
    (s.rangeBytes start len)[i] = s.buf.read (start + i) := by
  simp [State.rangeBytes, State.memRead]

/-- Two buffers that agree on a range give the same bytes. -/
theorem rangeBytes_congr (s t : State) (start len : Nat)
    (h : ∀ i, i < len → s.buf.read (start + i) = t.buf.read (start + i)) :
    s.rangeBytes start len = t.rangeBytes start len := by
  apply List.map_congr_left
  intro i hi
  exact h i (List.mem_range.mp hi)

/-- A write outside a range leaves its bytes. -/
theorem rangeBytes_memWrite_outside (s : State) (start len o : Nat) (b : Byte)
    (h : ¬ (start ≤ o ∧ o < start + len)) : (s.memWrite o b).rangeBytes start len = s.rangeBytes start len := by
  apply rangeBytes_congr
  intro i hi
  rw [memWrite_buf, read_write_other _ _ _ _ (by omega)]

theorem csumBy_cases (alg : Alg) (start len : Off) (s : State) :
    (start.toNat + len.toNat ≤ s.buflen.toNat ∧
      csumBy alg start len s = s.done (compute alg (s.rangeBytes start.toNat len.toNat))) ∨
    (s.buflen.toNat < start.toNat + len.toNat ∧ csumBy alg start len s = s.raise .truncatedInput s.buflen) := by
  unfold csumBy
  split
  · exact .inl ⟨(rangeInBounds_iff _ _ _).mp ‹_›, rfl⟩
  · exact .inr ⟨Nat.lt_of_not_le fun h => ‹¬ _› ((rangeInBounds_iff _ _ _).mpr h), rfl⟩

/-- The operands of `CSVER` and `CSPUT` name offsets inside the buffer and `at` outside the range (R78 to R80). -/
def checksumOperandsOk (buflen pos start len : Off) : Prop :=
  ¬ (start.toNat ≤ pos.toNat ∧ pos.toNat < start.toNat + len.toNat) ∧ pos.toNat < buflen.toNat ∧
    start.toNat + len.toNat ≤ buflen.toNat

theorem csverBy_cases (alg : Alg) (pos start len : Off) (s : State) :
    ((start.toNat ≤ pos.toNat ∧ pos.toNat < start.toNat + len.toNat) ∧
      csverBy alg pos start len s = s.raise .illegalCommand 0) ∨
    (checksumOperandsOk s.buflen pos start len ∧
      compute alg (s.rangeBytes start.toNat len.toNat) = s.memRead pos.toNat ∧
      csverBy alg pos start len s = s.done 1) ∨
    (checksumOperandsOk s.buflen pos start len ∧
      compute alg (s.rangeBytes start.toNat len.toNat) ≠ s.memRead pos.toNat ∧
      csverBy alg pos start len s = s.raise .checksumMismatch pos) ∨
    (¬ (start.toNat ≤ pos.toNat ∧ pos.toNat < start.toNat + len.toNat) ∧
      (s.buflen.toNat ≤ pos.toNat ∨ s.buflen.toNat < start.toNat + len.toNat) ∧
      csverBy alg pos start len s = s.raise .truncatedInput s.buflen) := by
  unfold csverBy checksumOperandsOk
  simp only [Bool.and_eq_true, offInBounds_iff, rangeInBounds_iff, insideRange_iff]
  split
  · exact .inl ⟨‹_›, rfl⟩
  · split
    · split
      · exact .inr (.inl ⟨⟨‹_›, ‹_›⟩, ‹_›, rfl⟩)
      · exact .inr (.inr (.inl ⟨⟨‹_›, ‹_›⟩, ‹_›, rfl⟩))
    · refine .inr (.inr (.inr ⟨‹_›, ?_, rfl⟩))
      omega

theorem csputBy_cases (alg : Alg) (pos start len : Off) (s : State) :
    ((start.toNat ≤ pos.toNat ∧ pos.toNat < start.toNat + len.toNat) ∧
      csputBy alg pos start len s = s.raise .illegalCommand 0) ∨
    (checksumOperandsOk s.buflen pos start len ∧
      csputBy alg pos start len s =
        (s.memWrite pos.toNat (compute alg (s.rangeBytes start.toNat len.toNat))).done
          (compute alg (s.rangeBytes start.toNat len.toNat))) ∨
    (¬ (start.toNat ≤ pos.toNat ∧ pos.toNat < start.toNat + len.toNat) ∧
      (s.buflen.toNat ≤ pos.toNat ∨ s.buflen.toNat < start.toNat + len.toNat) ∧
      csputBy alg pos start len s = s.raise .truncatedInput s.buflen) := by
  unfold csputBy checksumOperandsOk
  simp only [Bool.and_eq_true, offInBounds_iff, rangeInBounds_iff, insideRange_iff]
  split
  · exact .inl ⟨‹_›, rfl⟩
  · split
    · exact .inr (.inl ⟨⟨‹_›, ‹_›⟩, rfl⟩)
    · refine .inr (.inr ⟨‹_›, ?_, rfl⟩)
      omega

/-- `CSVER` once its operands pass the checks of R78 to R80. -/
theorem csverBy_of_ok (alg : Alg) (pos start len : Off) (s : State) (hok : checksumOperandsOk s.buflen pos start len) :
    csverBy alg pos start len s =
      if compute alg (s.rangeBytes start.toNat len.toNat) = s.buf.read pos.toNat then s.done 1
      else s.raise .checksumMismatch pos := by
  obtain ⟨h1, h2, h3⟩ := hok
  rcases csverBy_cases alg pos start len s with ⟨h, _⟩ | ⟨_, hc, h⟩ | ⟨_, hc, h⟩ | ⟨_, h, _⟩
  · exact absurd h h1
  · rw [memRead_eq] at hc
    rw [h, if_pos hc]
  · rw [memRead_eq] at hc
    rw [h, if_neg hc]
  · omega

/-- `CSPUT` once its operands pass the checks of R79 and R80. -/
theorem csputBy_of_ok (alg : Alg) (pos start len : Off) (s : State) (hok : checksumOperandsOk s.buflen pos start len) :
    csputBy alg pos start len s =
      (s.memWrite pos.toNat (compute alg (s.rangeBytes start.toNat len.toNat))).done
        (compute alg (s.rangeBytes start.toNat len.toNat)) := by
  obtain ⟨h1, h2, h3⟩ := hok
  rcases csputBy_cases alg pos start len s with ⟨h, _⟩ | ⟨_, h⟩ | ⟨_, h, _⟩
  · exact absurd h h1
  · exact h
  · omega

/-- A write inside a range changes the one byte of it. -/
theorem rangeBytes_memWrite_inside (s : State) (start len i : Nat) (c : Byte) (hi : i < len) :
    (s.memWrite (start + i) c).rangeBytes start len = (s.rangeBytes start len).set i c := by
  apply List.ext_getElem (by simp)
  intro j h1 h2
  rw [getElem_rangeBytes, memWrite_buf, read_write, List.getElem_set, getElem_rangeBytes]
  by_cases h : i = j
  · subst h
    simp
  · rw [if_neg (by omega), if_neg h]

@[simp] theorem rangeBytes_respond (s : State) (r : Byte) (c : ReportClass) (e : Off) (start len : Nat) :
    (s.respond r c e).rangeBytes start len = s.rangeBytes start len := rfl

@[simp] theorem rangeBytes_done (s : State) (r : Byte) (start len : Nat) :
    (s.done r).rangeBytes start len = s.rangeBytes start len := rfl

/-- The descriptors that claims call legal are the ones the machine accepts (`30_encoding.md` R56). -/
theorem legalField_iff (s : Shift) (w : Width) : LegalField s w ↔ legalDescriptor s w = true :=
  (legalDescriptor_iff s w).symm

theorem withDescriptor_legal (s : Shift) (w : Width) (σ go : State) (h : legalDescriptor s w = true) :
    withDescriptor s w σ go = go := if_pos h

theorem withDescriptor_illegal (s : Shift) (w : Width) (σ go : State) (h : legalDescriptor s w = false) :
    withDescriptor s w σ go = σ.raise .illegalCommand 0 := if_neg (by simp [h])

theorem execUnpk_cases (b : Byte) (sh : Shift) (w : Width) (s : State) :
    (¬ LegalField sh w ∧ execUnpk b sh w s = .next (s.raise .illegalCommand 0)) ∨
    (LegalField sh w ∧ execUnpk b sh w s = .next (s.done (unpack b sh w))) := by
  rw [legalField_iff]
  unfold execUnpk withDescriptor
  split
  · exact .inr ⟨‹_›, rfl⟩
  · exact .inl ⟨‹_›, rfl⟩

theorem execPack_cases (b : Byte) (sh : Shift) (w : Width) (v : Val) (s : State) :
    (¬ LegalField sh w ∧ execPack b sh w v s = .next (s.raise .illegalCommand 0)) ∨
    (LegalField sh w ∧ 2 ^ w.toNat ≤ v.toNat ∧ execPack b sh w v s = .next (s.raise .fieldOutOfRange 0)) ∨
    (LegalField sh w ∧ v.toNat < 2 ^ w.toNat ∧ execPack b sh w v s = .next (s.done (pack b sh w v))) := by
  rw [legalField_iff]
  unfold execPack withDescriptor
  split
  · split
    · exact .inr (.inr ⟨‹_›, (fitsWidth_iff _ _).mp ‹_›, rfl⟩)
    · exact .inr (.inl ⟨‹_›, Nat.le_of_not_lt fun h => ‹¬ fitsWidth v w = true› ((fitsWidth_iff _ _).mpr h), rfl⟩)
  · exact .inl ⟨‹_›, rfl⟩

theorem execLdf_cases (off : Off) (sh : Shift) (w : Width) (s : State) :
    (¬ LegalField sh w ∧ execLdf off sh w s = .next (s.raise .illegalCommand 0)) ∨
    (LegalField sh w ∧ s.buflen.toNat ≤ off.toNat ∧
      execLdf off sh w s = .next (s.raise .truncatedInput s.buflen)) ∨
    (LegalField sh w ∧ off.toNat < s.buflen.toNat ∧
      execLdf off sh w s = .next (s.done (unpack (s.buf.read off.toNat) sh w))) := by
  rw [legalField_iff]
  unfold execLdf withDescriptor
  split
  · split
    · exact .inr (.inr ⟨‹_›, (offInBounds_iff _ _).mp ‹_›, rfl⟩)
    · exact .inr (.inl ⟨‹_›, Nat.le_of_not_lt fun h => ‹¬ offInBounds _ _ = true› ((offInBounds_iff _ _).mpr h), rfl⟩)
  · exact .inl ⟨‹_›, rfl⟩

theorem execStf_cases (off : Off) (sh : Shift) (w : Width) (v : Val) (s : State) :
    (¬ LegalField sh w ∧ execStf off sh w v s = .next (s.raise .illegalCommand 0)) ∨
    (LegalField sh w ∧ 2 ^ w.toNat ≤ v.toNat ∧ execStf off sh w v s = .next (s.raise .fieldOutOfRange off)) ∨
    (LegalField sh w ∧ v.toNat < 2 ^ w.toNat ∧ s.buflen.toNat ≤ off.toNat ∧
      execStf off sh w v s = .next (s.raise .truncatedInput s.buflen)) ∨
    (LegalField sh w ∧ v.toNat < 2 ^ w.toNat ∧ off.toNat < s.buflen.toNat ∧
      execStf off sh w v s = .next ((s.memWrite off.toNat (pack (s.buf.read off.toNat) sh w v)).done
        (pack (s.buf.read off.toNat) sh w v))) := by
  rw [legalField_iff]
  unfold execStf withDescriptor
  split
  · split
    · have hv := (fitsWidth_iff v w).mp ‹_›
      split
      · exact .inr (.inr (.inr ⟨‹_›, hv, (offInBounds_iff _ _).mp ‹_›, rfl⟩))
      · exact .inr (.inr (.inl ⟨‹_›, hv,
          Nat.le_of_not_lt fun h => ‹¬ offInBounds _ _ = true› ((offInBounds_iff _ _).mpr h), rfl⟩))
    · exact .inr (.inl ⟨‹_›, Nat.le_of_not_lt fun h => ‹¬ fitsWidth v w = true› ((fitsWidth_iff _ _).mpr h), rfl⟩)
  · exact .inl ⟨‹_›, rfl⟩

/-- How a command may leave the machine: it ends with a report of a class the engine reports, having written nothing; or
it succeeds, having written nothing; or it succeeds, having written one byte at an offset inside the buffer. -/
inductive Ending (s t : State) : Prop where
  | raised (c : ReportClass) (e : Off) (hc : c.reported = true) (hok : c ≠ .ok) (h : t = s.raise c e)
  | finished (r : Byte) (h : t = s.done r)
  | stored (o : Nat) (b r : Byte) (ho : o < s.buflen.toNat) (h : t = (s.memWrite o b).done r)

/-- Every command answers a next state, and this is all it can be (`60_exceptions.md` R113, R114, R118). -/
theorem exec_ending (i : Instr) (s : State) : ∃ t, exec i s = .next t ∧ Ending s t := by
  cases i with
  | csum start len =>
    refine ⟨_, rfl, ?_⟩
    rcases csumBy_cases Config.alg start len s with ⟨_, h⟩ | ⟨_, h⟩
    · exact .finished _ h
    · exact .raised _ _ rfl (by decide) h
  | csver pos start len =>
    refine ⟨_, rfl, ?_⟩
    rcases csverBy_cases Config.alg pos start len s with ⟨_, h⟩ | ⟨_, _, h⟩ | ⟨_, _, h⟩ | ⟨_, _, h⟩
    · exact .raised _ _ rfl (by decide) h
    · exact .finished _ h
    · exact .raised _ _ rfl (by decide) h
    · exact .raised _ _ rfl (by decide) h
  | csput pos start len =>
    refine ⟨_, rfl, ?_⟩
    rcases csputBy_cases Config.alg pos start len s with ⟨_, h⟩ | ⟨hok, h⟩ | ⟨_, _, h⟩
    · exact .raised _ _ rfl (by decide) h
    · exact .stored _ _ _ hok.2.1 h
    · exact .raised _ _ rfl (by decide) h
  | unpk b sh w =>
    rcases execUnpk_cases b sh w s with ⟨_, h⟩ | ⟨_, h⟩
    · exact ⟨_, h, .raised _ _ rfl (by decide) rfl⟩
    · exact ⟨_, h, .finished _ rfl⟩
  | pack b sh w v =>
    rcases execPack_cases b sh w v s with ⟨_, h⟩ | ⟨_, _, h⟩ | ⟨_, _, h⟩
    · exact ⟨_, h, .raised _ _ rfl (by decide) rfl⟩
    · exact ⟨_, h, .raised _ _ rfl (by decide) rfl⟩
    · exact ⟨_, h, .finished _ rfl⟩
  | ldf off sh w =>
    rcases execLdf_cases off sh w s with ⟨_, h⟩ | ⟨_, _, h⟩ | ⟨_, _, h⟩
    · exact ⟨_, h, .raised _ _ rfl (by decide) rfl⟩
    · exact ⟨_, h, .raised _ _ rfl (by decide) rfl⟩
    · exact ⟨_, h, .finished _ rfl⟩
  | stf off sh w v =>
    rcases execStf_cases off sh w v s with ⟨_, h⟩ | ⟨_, _, h⟩ | ⟨_, _, _, h⟩ | ⟨_, _, ho, h⟩
    · exact ⟨_, h, .raised _ _ rfl (by decide) rfl⟩
    · exact ⟨_, h, .raised _ _ rfl (by decide) rfl⟩
    · exact ⟨_, h, .raised _ _ rfl (by decide) rfl⟩
    · exact ⟨_, h, .stored _ _ _ ho rfl⟩

/-- The same of any word the host issues, legal or not (`30_encoding.md` R58, R59). -/
theorem issueWord_ending (cw : CmdWord) (s : State) : ∃ t, issueWord cw s = .next t ∧ Ending s t := by
  unfold issueWord
  split
  · exact exec_ending _ s
  · exact ⟨_, rfl, .raised _ _ rfl (by decide) rfl⟩

/-- The step, one equation per state of the host's list. -/
theorem step_waiting (s : State) (h : s.events = []) : step s = .next s := by simp [step, takeEvent, h]

theorem step_event (s : State) (e : HostEvent) (es : List HostEvent) (h : s.events = e :: es) :
    step s = runEvent e (s.withEvents es) := by simp [step, takeEvent, h]

@[simp] theorem runEvent_reset (s : State) : runEvent .reset s = .next (resetEngine s) := rfl
@[simp] theorem runEvent_attach (bytes : List Byte) (s : State) : runEvent (.attach bytes) s = attachBuffer bytes s := rfl
@[simp] theorem runEvent_detach (s : State) : runEvent .detach s = .next (detachBuffer s) := rfl
@[simp] theorem runEvent_issue (cw : CmdWord) (s : State) : runEvent (.issue cw) s = issueWord cw s := rfl
@[simp] theorem runEvent_observe (s : State) : runEvent .observe s = .next (observeReport s) := rfl
@[simp] theorem runEvent_readRegister (r : HostRegister) (s : State) :
    runEvent (.readRegister r) s = .next (readRegister r s) := rfl

/-- What `Attach` can do (`60_exceptions.md` R128, R131). -/
theorem attachBuffer_cases (bytes : List Byte) (s : State) :
    (s.sessionOpen = true ∧ attachBuffer bytes s = .refused .attachDuringSession) ∨
    (s.sessionOpen = false ∧ bytes.length ≤ 65535 ∧ attachBuffer bytes s = .next (s.attached bytes)) ∨
    (s.sessionOpen = false ∧ 65535 < bytes.length ∧ attachBuffer bytes s = .refused .attachTooLong) := by
  unfold attachBuffer Config.maxBuf
  split
  · exact .inl ⟨‹_›, rfl⟩
  · split
    · exact .inr (.inl ⟨by simp_all, ‹_›, rfl⟩)
    · exact .inr (.inr ⟨by simp_all, by omega, rfl⟩)

end Sys2Proof.Machine
end

