-- ==== Sys2Proof/Laws/Encoding.lean ====
section
/-! SUPPORT. The seven fields of a command word (`30_encoding.md` R51): reading a field of a word made of fields gives the
field, and a word is made of its fields. -/

namespace Sys2Proof

theorem getLsbD_wordOfFields (op : BitVec 4) (s : Shift) (w : Width) (z : BitVec 5) (a b c : BitVec 16) (i : Nat) :
    (wordOfFields op s w z a b c).getLsbD i =
      if i < 16 then c.getLsbD i
      else if i < 32 then b.getLsbD (i - 16)
      else if i < 48 then a.getLsbD (i - 32)
      else if i < 53 then z.getLsbD (i - 48)
      else if i < 57 then w.getLsbD (i - 53)
      else if i < 60 then s.getLsbD (i - 57)
      else op.getLsbD (i - 60) := by
  simp only [wordOfFields, BitVec.getLsbD_append]
  repeat' split
  all_goals first | rfl | omega

@[simp] theorem fieldOP_wordOfFields (op : BitVec 4) (s : Shift) (w : Width) (z : BitVec 5) (a b c : BitVec 16) :
    fieldOP (wordOfFields op s w z a b c) = op := by
  apply BitVec.eq_of_getLsbD_eq
  intro i hi
  rw [fieldOP, BitVec.getLsbD_extractLsb', getLsbD_wordOfFields]
  simp [hi, show ¬ 60 + i < 16 by omega, show ¬ 60 + i < 32 by omega, show ¬ 60 + i < 48 by omega,
    show ¬ 60 + i < 53 by omega, show ¬ 60 + i < 57 by omega, show ¬ 60 + i < 60 by omega]

@[simp] theorem fieldS_wordOfFields (op : BitVec 4) (s : Shift) (w : Width) (z : BitVec 5) (a b c : BitVec 16) :
    fieldS (wordOfFields op s w z a b c) = s := by
  apply BitVec.eq_of_getLsbD_eq
  intro i hi
  rw [fieldS, BitVec.getLsbD_extractLsb', getLsbD_wordOfFields]
  simp [hi, show ¬ 57 + i < 16 by omega, show ¬ 57 + i < 32 by omega, show ¬ 57 + i < 48 by omega,
    show ¬ 57 + i < 53 by omega, show ¬ 57 + i < 57 by omega, show 57 + i < 60 by omega]

@[simp] theorem fieldW_wordOfFields (op : BitVec 4) (s : Shift) (w : Width) (z : BitVec 5) (a b c : BitVec 16) :
    fieldW (wordOfFields op s w z a b c) = w := by
  apply BitVec.eq_of_getLsbD_eq
  intro i hi
  rw [fieldW, BitVec.getLsbD_extractLsb', getLsbD_wordOfFields]
  simp [hi, show ¬ 53 + i < 16 by omega, show ¬ 53 + i < 32 by omega, show ¬ 53 + i < 48 by omega,
    show ¬ 53 + i < 53 by omega, show 53 + i < 57 by omega]

@[simp] theorem fieldZ_wordOfFields (op : BitVec 4) (s : Shift) (w : Width) (z : BitVec 5) (a b c : BitVec 16) :
    fieldZ (wordOfFields op s w z a b c) = z := by
  apply BitVec.eq_of_getLsbD_eq
  intro i hi
  rw [fieldZ, BitVec.getLsbD_extractLsb', getLsbD_wordOfFields]
  simp [hi, show ¬ 48 + i < 16 by omega, show ¬ 48 + i < 32 by omega, show ¬ 48 + i < 48 by omega,
    show 48 + i < 53 by omega]

@[simp] theorem fieldA_wordOfFields (op : BitVec 4) (s : Shift) (w : Width) (z : BitVec 5) (a b c : BitVec 16) :
    fieldA (wordOfFields op s w z a b c) = a := by
  apply BitVec.eq_of_getLsbD_eq
  intro i hi
  rw [fieldA, BitVec.getLsbD_extractLsb', getLsbD_wordOfFields]
  simp [hi, show ¬ 32 + i < 16 by omega, show ¬ 32 + i < 32 by omega, show 32 + i < 48 by omega]

@[simp] theorem fieldB_wordOfFields (op : BitVec 4) (s : Shift) (w : Width) (z : BitVec 5) (a b c : BitVec 16) :
    fieldB (wordOfFields op s w z a b c) = b := by
  apply BitVec.eq_of_getLsbD_eq
  intro i hi
  rw [fieldB, BitVec.getLsbD_extractLsb', getLsbD_wordOfFields]
  simp [hi, show ¬ 16 + i < 16 by omega, show 16 + i < 32 by omega]

@[simp] theorem fieldC_wordOfFields (op : BitVec 4) (s : Shift) (w : Width) (z : BitVec 5) (a b c : BitVec 16) :
    fieldC (wordOfFields op s w z a b c) = c := by
  apply BitVec.eq_of_getLsbD_eq
  intro i hi
  rw [fieldC, BitVec.getLsbD_extractLsb', getLsbD_wordOfFields]
  simp [hi]

/-- A word is made of its fields (R51). -/
theorem wordOfFields_fields (cw : CmdWord) :
    wordOfFields (fieldOP cw) (fieldS cw) (fieldW cw) (fieldZ cw) (fieldA cw) (fieldB cw) (fieldC cw) = cw := by
  apply BitVec.eq_of_getLsbD_eq
  intro i hi
  rw [getLsbD_wordOfFields]
  simp only [fieldOP, fieldS, fieldW, fieldZ, fieldA, fieldB, fieldC, BitVec.getLsbD_extractLsb']
  have key (n k : Nat) (h : k ≤ i) (hn : i - k < n) :
      (decide (i - k < n) && cw.getLsbD (k + (i - k))) = cw.getLsbD i := by
    rw [Nat.add_sub_cancel' h, decide_eq_true hn, Bool.true_and]
  repeat' split
  · simp [‹i < 16›]
  all_goals exact key _ _ (by omega) (by omega)

/-- Two words are equal when their fields are. -/
theorem eq_of_fields (cw cw' : CmdWord) (hop : fieldOP cw = fieldOP cw') (hs : fieldS cw = fieldS cw')
    (hw : fieldW cw = fieldW cw') (hz : fieldZ cw = fieldZ cw') (ha : fieldA cw = fieldA cw')
    (hb : fieldB cw = fieldB cw') (hc : fieldC cw = fieldC cw') : cw = cw' := by
  rw [← wordOfFields_fields cw, ← wordOfFields_fields cw', hop, hs, hw, hz, ha, hb, hc]

/-- Words are anded field by field. -/
theorem and_wordOfFields (op : BitVec 4) (s : Shift) (w : Width) (z : BitVec 5) (a b c : BitVec 16) (op' : BitVec 4) (s' : Shift) (w' : Width)
    (z' : BitVec 5) (a' b' c' : BitVec 16) :
    wordOfFields op s w z a b c &&& wordOfFields op' s' w' z' a' b' c' =
      wordOfFields (op &&& op') (s &&& s') (w &&& w') (z &&& z') (a &&& a') (b &&& b') (c &&& c') := by
  apply BitVec.eq_of_getLsbD_eq
  intro i _
  simp only [BitVec.getLsbD_and, getLsbD_wordOfFields]
  repeat' split
  all_goals rfl

/-- The low byte of `A` (R53). -/
theorem fieldALow_eq (cw : CmdWord) : fieldALow cw = (fieldA cw).setWidth 8 := by
  apply BitVec.eq_of_getLsbD_eq
  intro i hi
  rw [fieldALow, fieldA, BitVec.getLsbD_extractLsb', BitVec.getLsbD_setWidth, BitVec.getLsbD_extractLsb']
  simp [hi, show i < 16 by omega]

/-- The high byte of `A` (R53). -/
theorem fieldAHigh_eq (cw : CmdWord) : fieldAHigh cw = (fieldA cw).extractLsb' 8 8 := by
  apply BitVec.eq_of_getLsbD_eq
  intro i hi
  rw [fieldAHigh, fieldA, BitVec.getLsbD_extractLsb', BitVec.getLsbD_extractLsb', BitVec.getLsbD_extractLsb']
  simp [hi, show 8 + i < 16 by omega, ← Nat.add_assoc]

/-- A format F word has a zero high operand byte exactly when `A` is the operand byte extended by zeros (R53). -/
theorem fieldA_of_high_zero (cw : CmdWord) (h : fieldAHigh cw = 0) : fieldA cw = (fieldALow cw).setWidth 16 := by
  apply BitVec.eq_of_getLsbD_eq
  intro i hi
  rw [fieldALow_eq, BitVec.getLsbD_setWidth]
  by_cases h8 : i < 8
  · simp [hi, h8]
  · have hb : (fieldAHigh cw).getLsbD (i - 8) = false := by simp [h]
    rw [fieldAHigh_eq, BitVec.getLsbD_extractLsb', show 8 + (i - 8) = i by omega] at hb
    simp only [show i - 8 < 8 by omega, decide_true, Bool.true_and] at hb
    rw [hb, BitVec.getLsbD_of_ge ((fieldA cw).setWidth 8) i (by omega), Bool.and_false]

end Sys2Proof
end

