-- ==== Sys2Proof/Laws/PerInstr.lean ====
section
/-! SUPPORT. The family `FixedBits`: the word of a command has the fixed bits of its row of the opcode table
(`30_encoding.md` R57, match and mask). -/

namespace Sys2Proof.Laws.FixedBits

open Sys2Proof

/-- `cw & mask == match` for the word of the command. -/
def Statement (i : Instr) : Prop := encode i &&& tableMask i = tableMatch i

/-- Masking a word field by field: the mask given by its fields. -/
theorem masked (mask : CmdWord) (op mop : BitVec 4) (s ms : Shift) (w mw : Width) (z mz : BitVec 5)
    (a ma b mb c mc : BitVec 16) (h : mask = wordOfFields mop ms mw mz ma mb mc) :
    wordOfFields op s w z a b c &&& mask =
      wordOfFields (op &&& mop) (s &&& ms) (w &&& mw) (z &&& mz) (a &&& ma) (b &&& mb) (c &&& mc) := by
  rw [h, and_wordOfFields]

/-- A byte extended to 16 bits has no bit in the high byte. -/
theorem setWidth_and_high (b : Byte) : b.setWidth 16 &&& (0xFF00 : BitVec 16) = 0 := by
  apply BitVec.eq_of_getLsbD_eq
  intro i hi
  rw [BitVec.getLsbD_and, BitVec.getLsbD_setWidth]
  by_cases h : i < 8
  · have : ∀ j, j < 8 → (0xFF00 : BitVec 16).getLsbD j = false := by decide
    rw [this i h, Bool.and_false]
    exact BitVec.getLsbD_zero.symm
  · simp [BitVec.getLsbD_of_ge b i (by omega)]

/-- Bits outside the mask are taken away. -/
theorem and_none (n : Nat) (x : BitVec n) : x &&& (0 : BitVec n) = 0 := BitVec.and_zero

theorem csum (start len : Off) : Statement (.csum start len) := by
  rw [Statement, encode, tableMask, tableMatch, masked _ _ 15 _ 7 _ 15 _ 31 _ 0xFFFF _ 0 _ 0 (by decide)]
  simp only [and_none]
  decide

theorem csver (pos start len : Off) : Statement (.csver pos start len) := by
  rw [Statement, encode, tableMask, tableMatch, masked _ _ 15 _ 7 _ 15 _ 31 _ 0 _ 0 _ 0 (by decide)]
  simp only [and_none]
  decide

theorem csput (pos start len : Off) : Statement (.csput pos start len) := by
  rw [Statement, encode, tableMask, tableMatch, masked _ _ 15 _ 7 _ 15 _ 31 _ 0 _ 0 _ 0 (by decide)]
  simp only [and_none]
  decide

theorem unpk (b : Byte) (s : Shift) (w : Width) : Statement (.unpk b s w) := by
  rw [Statement, encode, tableMask, tableMatch, masked _ _ 15 _ 0 _ 0 _ 31 _ 0xFF00 _ 0xFFFF _ 0xFFFF (by decide)]
  simp only [and_none, setWidth_and_high]
  decide

theorem pack (b : Byte) (s : Shift) (w : Width) (v : Val) : Statement (.pack b s w v) := by
  rw [Statement, encode, tableMask, tableMatch, masked _ _ 15 _ 0 _ 0 _ 31 _ 0xFF00 _ 0 _ 0xFFFF (by decide)]
  simp only [and_none, setWidth_and_high]
  decide

theorem ldf (off : Off) (s : Shift) (w : Width) : Statement (.ldf off s w) := by
  rw [Statement, encode, tableMask, tableMatch, masked _ _ 15 _ 0 _ 0 _ 31 _ 0 _ 0xFFFF _ 0xFFFF (by decide)]
  simp only [and_none]
  decide

theorem stf (off : Off) (s : Shift) (w : Width) (v : Val) : Statement (.stf off s w v) := by
  rw [Statement, encode, tableMask, tableMatch, masked _ _ 15 _ 0 _ 0 _ 31 _ 0 _ 0 _ 0xFFFF (by decide)]
  simp only [and_none]
  decide

end Sys2Proof.Laws.FixedBits
end

