-- ==== Sys2Proof/Laws/Run.lean ====
section
/-! SUPPORT. The one induction over a run: what holds of a state and is kept by every step holds of every state a run
reaches. -/

namespace Sys2Proof.Machine

theorem run_keeps (P : State → Prop) (hstep : ∀ s t, P s → step s = .next t → P t) (k : Nat) (s t : State)
    (hs : P s) (h : Host.Core.run Sys2Proof.core k s = .next t) : P t := by
  induction k generalizing s with
  | zero =>
    injection h with hst
    exact hst ▸ hs
  | succ k ih =>
    simp only [Host.Core.run] at h
    split at h
    · exact ih _ (hstep _ _ hs ‹_›) h
    · cases h
    · cases h

end Sys2Proof.Machine
end

