-- ==== Sys2Proof/Tests/Slice0.lean ====
section
/-! SUPPORT. Tests on values written out in `spec/95_test_vectors.md` (its section is named at each test), and witnesses: for
every statement of Certificates/Slice0/Obligations.lean that has hypotheses, states and operands that meet them. -/

namespace Sys2Proof.Tests

open Sys2Proof Sys2Proof.Machine

/-! ## Helpers -/

/-- The bytes of the buffer `EX` of `40_checksum.md`. -/
def exBytes : List Byte := [0x00, 0x4C, 0x65, 0x61, 0x64, 0x20, 0x20, 0x20, 0x20]

/-- The engine after `Reset` and `Attach(EX)`. -/
def exState : State := State.reset.attached exBytes

/-- `EX` with another stored checksum byte at offset 0. -/
def storing (c : Byte) : State := exState.memWrite 0 c

/-- `RES`, `STAT`, `EOFF`. -/
def report (s : State) : Byte × Byte × Off := (s.res, s.stat, s.eoff)

/-- The report and the buffer after a step that goes on. -/
def after : Host.Outcome State Fault Refusal → Option ((Byte × Byte × Off) × Memory)
  | .next t => some (report t, t.buf)
  | .fault _ => none
  | .refused _ => none

/-- The report and the buffer after the word, issued on a state. -/
def ranOn (s : State) (cw : Nat) : Option ((Byte × Byte × Off) × Memory) := after (step (s.withFetchWord 64 cw))

/-- The 86 values 0 to 85. -/
def ramp : List Byte := (List.range 86).map (BitVec.ofNat 8)

/-! ## WellFormed and decoding -/

theorem test_wellFormed_refuses_width_zero :
    (Instr.unpk 0x55 0 0).wellFormed = false ∧ (Instr.pack 0x15 0 0 0).wellFormed = false ∧
    (Instr.ldf 3 0 0).wellFormed = false ∧ (Instr.stf 3 0 0 0).wellFormed = false := by decide

theorem test_wellFormed_refuses_width_nine :
    (Instr.unpk 0x55 0 9).wellFormed = false ∧ (Instr.pack 0x15 0 9 0).wellFormed = false ∧
    (Instr.ldf 3 0 9).wellFormed = false ∧ (Instr.stf 3 0 9 0).wellFormed = false := by decide

theorem test_wellFormed_refuses_field_over_the_top :
    (Instr.unpk 0x55 1 8).wellFormed = false ∧ (Instr.pack 0x15 2 7 0).wellFormed = false ∧
    (Instr.ldf 3 7 2).wellFormed = false ∧ (Instr.stf 3 5 4 0).wellFormed = false := by decide

theorem test_wellFormed_accepts_the_edges :
    (Instr.unpk 0x55 7 1).wellFormed = true ∧ (Instr.pack 0x15 0 8 0).wellFormed = true ∧
    (Instr.ldf 3 1 7).wellFormed = true ∧ (Instr.csver 1 1 8).wellFormed = true := by decide

/-- Words written out bit by bit from `30_encoding.md` R51: `OP`, `S`, `W`, `Z`, `A`, `B`, `C`. -/
theorem test_decode_words_by_bits :
    decode (0b0001#4 ++ 0b000#3 ++ 0b0000#4 ++ 0b00000#5 ++ 0x0000#16 ++ 0x0102#16 ++ 0x0304#16)
      = .ok (.csum 0x0102 0x0304) ∧
    decode (0b0010#4 ++ 0b000#3 ++ 0b0000#4 ++ 0b00000#5 ++ 0x0506#16 ++ 0x0102#16 ++ 0x0304#16)
      = .ok (.csver 0x0506 0x0102 0x0304) ∧
    decode (0b0011#4 ++ 0b000#3 ++ 0b0000#4 ++ 0b00000#5 ++ 0x0506#16 ++ 0x0102#16 ++ 0x0304#16)
      = .ok (.csput 0x0506 0x0102 0x0304) ∧
    decode (0b0100#4 ++ 0b101#3 ++ 0b0010#4 ++ 0b00000#5 ++ 0x0055#16 ++ 0x0000#16 ++ 0x0000#16)
      = .ok (.unpk 0x55 5 2) ∧
    decode (0b0101#4 ++ 0b011#3 ++ 0b0101#4 ++ 0b00000#5 ++ 0x00A5#16 ++ 0x1234#16 ++ 0x0000#16)
      = .ok (.pack 0xA5 3 5 0x1234) ∧
    decode (0b0110#4 ++ 0b001#3 ++ 0b0111#4 ++ 0b00000#5 ++ 0x8001#16 ++ 0x0000#16 ++ 0x0000#16)
      = .ok (.ldf 0x8001 1 7) ∧
    decode (0b0111#4 ++ 0b000#3 ++ 0b1000#4 ++ 0b00000#5 ++ 0x8001#16 ++ 0x1234#16 ++ 0x0000#16)
      = .ok (.stf 0x8001 0 8 0x1234) := by decide

/-- The illegal words of 2.5, each rejected by its case. -/
theorem test_decode_rejects_by_case :
    decode 0x0000000000000000 = .error .opcode ∧ decode 0x8000000000000000 = .error .opcode ∧
    decode 0xFFFFFFFFFFFFFFFF = .error .opcode ∧ decode 0x3001000000010008 = .error .reservedBits ∧
    decode 0x4A41005500000000 = .error .reservedBits ∧ decode 0x1200000000010008 = .error .rangeWithDescriptor ∧
    decode 0x2020000000010008 = .error .rangeWithDescriptor ∧ decode 0x1000000100010008 = .error .csumWithAt ∧
    decode 0x4000005500000000 = .error .descriptor ∧ decode 0x4120005500000000 = .error .descriptor ∧
    decode 0x4300005500000000 = .error .descriptor ∧ decode 0x6120000300000000 = .error .descriptor ∧
    decode 0x60E0000300000001 = .error .thirdOperand ∧ decode 0x50A0000000150001 = .error .thirdOperand ∧
    decode 0x7A40000300020001 = .error .thirdOperand ∧ decode 0x4A40005500010000 = .error .secondOperand ∧
    decode 0x60E0000300010000 = .error .secondOperand ∧ decode 0x4A40015500000000 = .error .operandHighByte := by
  decide

/-- The nearest accepted words of 2.5. -/
theorem test_decode_accepts_the_neighbours :
    decode 0x1000000000000000 = .ok (.csum 0 0) ∧ decode 0x7100000000000000 = .ok (.stf 0 0 8 0) ∧
    decode 0x4020005500000000 = .ok (.unpk 0x55 0 1) ∧ decode 0x42E0005500000000 = .ok (.unpk 0x55 1 7) ∧
    decode 0x6100000300000000 = .ok (.ldf 3 0 8) ∧ decode 0x2000000400010008 = .ok (.csver 4 1 8) := by decide

theorem test_illegal_word_is_reported :
    ranOn exState 0x6120000300000000 = some ((0, 7, 0), exState.buf) := by decide

/-! ## The commands, one step each -/

/-- 2.1. -/
theorem test_compute_candidates :
    [algSum7TwosComplement, algXor7, algSum7A5].map (fun alg =>
      [[], [0x01], [0x7F], [0x80], [0xFF], [0x7F, 0x7F, 0x7F], [0x01, 0x02, 0x03], [0x40, 0x40]].map (compute alg)) =
    [[0x00, 0x7F, 0x01, 0x00, 0x01, 0x03, 0x7A, 0x00], [0x00, 0x01, 0x7F, 0x00, 0x7F, 0x7F, 0x00, 0x00],
      [0x25, 0x26, 0x24, 0x25, 0x24, 0x22, 0x2B, 0x25]] := by decide

/-- 2.1, the two long rows. -/
theorem test_compute_ramp :
    [algSum7TwosComplement, algXor7, algSum7A5].map (fun alg => (compute alg ramp, compute alg (0x03 :: 0x02 :: 0x01 :: ramp))) =
    [(0x39, 0x33), (0x01, 0x01), (0x6C, 0x72)] := by decide +kernel

/-- 2.2, `CSUM 1, 8` and `CSUM 9, 0`. -/
theorem test_csum_candidates :
    [algSum7TwosComplement, algXor7, algSum7A5].map (fun alg =>
      (report (csumBy alg 1 8 exState), report (csumBy alg 9 0 exState))) =
    [((0x0A, 0, 0), (0x00, 0, 0)), ((0x2C, 0, 0), (0x00, 0, 0)), ((0x1B, 0, 0), (0x25, 0, 0))] := by decide

/-- 2.2, `CSUM 10, 0`, `CSUM 0, 10`, `CSUM 65535, 65535`. -/
theorem test_csum_truncated :
    [0x10000000000A0000, 0x100000000000000A, 0x10000000FFFFFFFF].map (ranOn exState) =
    List.replicate 3 (some ((0, 4, 9), exState.buf)) := by decide

/-- 2.2, `CSVER 0, 1, 8` with `BUF[0]` = 00, 0A, 8A, and `CSVER 8, 1, 7`. -/
theorem test_csver_candidates :
    [algSum7TwosComplement, algXor7, algSum7A5].map (fun alg =>
      [csverBy alg 0 1 8 exState, csverBy alg 0 1 8 (storing 0x0A), csverBy alg 0 1 8 (storing 0x8A),
        csverBy alg 8 1 7 exState].map report) =
    [[(0, 2, 0), (1, 0, 0), (0, 2, 0), (0, 2, 8)], [(0, 2, 0), (0, 2, 0), (0, 2, 0), (0, 2, 8)],
      [(0, 2, 0), (0, 2, 0), (0, 2, 0), (0, 2, 8)]] := by decide

/-- 2.2, `CSVER` with `at` at both ends of its range, just after it, a range too long, and both at once. -/
theorem test_csver_edges :
    [0x2000000100010008, 0x2000000800010008, 0x2000000900010008, 0x2000000000010009, 0x2000000400010009].map
      (ranOn exState) =
    [(0, 7, 0), (0, 7, 0), (0, 4, 9), (0, 4, 9), (0, 7, 0)].map fun r => some (r, exState.buf) := by decide

/-- 2.2, `CSPUT 0, 1, 8` and `CSPUT 8, 1, 7`: the report and the byte stored. -/
theorem test_csput_candidates :
    [algSum7TwosComplement, algXor7, algSum7A5].map (fun alg =>
      ((csputBy alg 0 1 8 exState).res, (csputBy alg 0 1 8 exState).bufBytes, (csputBy alg 8 1 7 exState).buf.read 8)) =
    [(0x0A, [0x0A, 0x4C, 0x65, 0x61, 0x64, 0x20, 0x20, 0x20, 0x20], 0x2A),
      (0x2C, [0x2C, 0x4C, 0x65, 0x61, 0x64, 0x20, 0x20, 0x20, 0x20], 0x0C),
      (0x1B, [0x1B, 0x4C, 0x65, 0x61, 0x64, 0x20, 0x20, 0x20, 0x20], 0x7B)] := by decide

/-- 2.2, `CSPUT 4, 1, 8` and `CSPUT 9, 1, 8`. -/
theorem test_csput_edges :
    [0x3000000400010008, 0x3000000900010008].map (ranOn exState) =
    [some ((0, 7, 0), exState.buf), some ((0, 4, 9), exState.buf)] := by decide

/-- 2.3. -/
theorem test_unpk :
    [0x410000A500000000, 0x4E2000A500000000, 0x446000A500000000, 0x40E000A500000000, 0x42E000FF00000000,
      0x4A40005500000000].map (ranOn exState) =
    [0xA5, 0x01, 0x01, 0x25, 0x7F, 0x02].map fun r => some ((r, 0, 0), exState.buf) := by decide

/-- 2.2, `UNPK 0xFF, 0, 8` with no buffer. -/
theorem test_unpk_without_buffer : ranOn State.reset 0x410000FF00000000 = some ((0xFF, 0, 0), []) := by decide

/-- 2.3. -/
theorem test_pack :
    [0x5A40001500020000, 0x5A40001500030000, 0x50E000FF00000000, 0x546000FF00000000, 0x510000A500FF0000].map
      (ranOn exState) =
    [0x55, 0x75, 0x80, 0xE3, 0xFF].map fun r => some ((r, 0, 0), exState.buf) := by decide

/-- 2.3. -/
theorem test_pack_too_wide :
    [0x5A40001500040000, 0x510000A501000000, 0x50200000FFFF0000].map (ranOn exState) =
    List.replicate 3 (some ((0, 5, 0), exState.buf)) := by decide

/-- 2.4. -/
theorem test_ldf :
    [0x60E0000300000000, 0x6100000800000000, 0x6A20000800000000, 0x6880000200000000].map (ranOn exState) =
    [0x61, 0x20, 0x01, 0x06].map fun r => some ((r, 0, 0), exState.buf) := by decide

/-- 2.4. -/
theorem test_ldf_truncated :
    [0x6100000900000000, 0x6100FFFF00000000].map (ranOn exState) =
    List.replicate 2 (some ((0, 4, 9), exState.buf)) := by decide

/-- 2.4, `STF 3, 5, 2, 2`, and a row of the sequence: `STF 0, 0, 7, 0` on a byte FF keeps bit 7. -/
theorem test_stf :
    ranOn exState 0x7A40000300020000 =
      some ((0x41, 0, 0), Memory.ofBytes 0 [0x00, 0x4C, 0x65, 0x41, 0x64, 0x20, 0x20, 0x20, 0x20]) ∧
    ranOn (storing 0xFF) 0x70E0000000000000 =
      some ((0x80, 0, 0), Memory.ofBytes 0 [0x80, 0x4C, 0x65, 0x61, 0x64, 0x20, 0x20, 0x20, 0x20]) := by decide

/-- 2.4, `STF` refused: the value, both, the offset. -/
theorem test_stf_errors :
    [0x7A40000300040000, 0x7A40000900040000, 0x7A40000900020000].map (ranOn exState) =
    [(0, 5, 3), (0, 5, 9), (0, 4, 9)].map fun r => some (r, exState.buf) := by decide

/-! ## Host events, layout, assembler -/

theorem test_host_session :
    after (step ((storing 0x0A).withEvents [.detach])) = some ((0, 0, 0), []) ∧
    (exState.raise .truncatedInput 9 |> observeReport).replies = [.report 0 4 9] := by decide

/-- `BUFLEN` of `EX` is 9, and reading it changes no register; the report is that of 2.2, `CSUM 1, 9`. -/
theorem test_host_reads_registers :
    let s := exState.raise .truncatedInput 9
    ([.buflen, .res, .stat, .eoff].map fun r => (readRegister r s).replies) =
      [[.register .buflen 9], [.register .res 0], [.register .stat 4], [.register .eoff 9]] ∧
    after (step (s.withEvents [.readRegister .buflen])) = some ((0, 4, 9), s.buf) := by decide

/-- The miniature frame of program P4: `HDR_LEN` = 5, `COMMON_LEN` = 3, one source. -/
theorem test_frame_operands :
    verifyFrame 5 3 1 = .csver 24 25 89 ∧ encodeFrame 5 3 1 = .csput 24 25 89 ∧ frameLength 5 3 1 = 115 ∧
    verifyUnwrapped 109 = .csver 19 20 89 := by decide

/-- Lines that spell no command. -/
theorem test_assembler_refuses :
    ["csum 1, 8", "CSUM 1", "CSUM 1, 8, 9", "UNPK 0x155, 5, 2", "PACK 0, 0, 5, 0x10000", "LDF 3, 7, 2", "NOP", "", "; x",
      "CSUM 1,, 8", "LDB 0x"].map (fun line => assembleLine line.toList) = List.replicate 11 none := by decide

theorem test_assembler_pseudo :
    assembleLine "COMPUTE 1, 8".toList = some (.csum 1 8) ∧ assembleLine "VERIFY 0, 1, 8".toList = some (.csver 0 1 8) ∧
    assembleLine "LDB 3".toList = some (.ldf 3 0 8) ∧ assembleLine "LD7 0x1B".toList = some (.ldf 27 0 7) ∧
    assembleLine "ST7 1, 0x42".toList = some (.stf 1 0 7 0x42) := by decide

/-! ## Witnesses

Each is named after the statement, or the statements, whose hypotheses it meets; a clause of its own has a name of its
own. -/

theorem buflen_exState : exState.buflen = 9 := by decide

theorem holdsAt_rangeBytes (s : State) (start len : Nat) : s.HoldsAt start (s.rangeBytes start len) :=
  fun i h => (getElem_rangeBytes s start len i h).symm

theorem bytes_storing (c : Byte) : (storing c).rangeBytes 1 8 = exState.rangeBytes 1 8 :=
  rangeBytes_memWrite_outside _ _ _ _ _ (by decide)

theorem holdsAt_storing (c : Byte) : (storing c).HoldsAt 1 (exState.rangeBytes 1 8) := by
  rw [← bytes_storing c]
  exact holdsAt_rangeBytes _ _ _

/-- `CsumReportsTheRangeChecksum`: the range that ends at `BUFLEN`, and one byte more. -/
theorem witness_CsumReportsTheRangeChecksum_inside_and_truncated :
    ((exState.rangeBytes 1 8).length = (8 : Off).toNat ∧ exState.HoldsAt (1 : Off).toNat (exState.rangeBytes 1 8) ∧
      (1 : Off).toNat + (8 : Off).toNat ≤ exState.buflen.toNat) ∧
    exState.buflen.toNat < (1 : Off).toNat + (9 : Off).toNat :=
  ⟨⟨by decide, holdsAt_rangeBytes _ _ _, by decide⟩, by decide⟩

/-- Words that differ in a bit are different. -/
theorem ne_of_bit {cw cw' : CmdWord} (k : Nat) (h : cw.getLsbD k ≠ cw'.getLsbD k) : cw ≠ cw' := fun e => h (by rw [e])

/-- The seven result statements, the clause on misspelt words: for each opcode a word of 2.5 (or of its kind) that has the
opcode and is not the command, told apart by one bit. -/
theorem witness_misspelt_words :
    ((0x1000000100010008 : CmdWord).extractLsb' 60 4 = 0x1#4 ∧
      ∀ start len : Off, (0x1000000100010008 : CmdWord) ≠ 0x1#4 ++ 0#28 ++ start ++ len) ∧
    ((0x2020000000010008 : CmdWord).extractLsb' 60 4 = 0x2#4 ∧
      ∀ pos start len : Off, (0x2020000000010008 : CmdWord) ≠ 0x2#4 ++ 0#12 ++ pos ++ start ++ len) ∧
    ((0x3001000000010008 : CmdWord).extractLsb' 60 4 = 0x3#4 ∧
      ∀ pos start len : Off, (0x3001000000010008 : CmdWord) ≠ 0x3#4 ++ 0#12 ++ pos ++ start ++ len) ∧
    ((0x4A41005500000000 : CmdWord).extractLsb' 60 4 = 0x4#4 ∧
      ∀ (b : Byte) (sh : Shift) (w : Width), (0x4A41005500000000 : CmdWord) ≠ 0x4#4 ++ sh ++ w ++ 0#13 ++ b ++ 0#32) ∧
    ((0x50A0000000150001 : CmdWord).extractLsb' 60 4 = 0x5#4 ∧
      ∀ (b : Byte) (sh : Shift) (w : Width) (v : Val),
        (0x50A0000000150001 : CmdWord) ≠ 0x5#4 ++ sh ++ w ++ 0#13 ++ b ++ v ++ 0#16) ∧
    ((0x60E0000300000001 : CmdWord).extractLsb' 60 4 = 0x6#4 ∧
      ∀ (off : Off) (sh : Shift) (w : Width), (0x60E0000300000001 : CmdWord) ≠ 0x6#4 ++ sh ++ w ++ 0#5 ++ off ++ 0#32) ∧
    ((0x7A40000300020001 : CmdWord).extractLsb' 60 4 = 0x7#4 ∧
      ∀ (off : Off) (sh : Shift) (w : Width) (v : Val),
        (0x7A40000300020001 : CmdWord) ≠ 0x7#4 ++ sh ++ w ++ 0#5 ++ off ++ v ++ 0#16) := by
  refine ⟨⟨by decide, fun start len h => ?_⟩, ⟨by decide, fun pos start len h => ?_⟩, ⟨by decide, fun pos start len h => ?_⟩,
    ⟨by decide, fun b sh w h => ?_⟩, ⟨by decide, fun b sh w v h => ?_⟩, ⟨by decide, fun off sh w h => ?_⟩,
    ⟨by decide, fun off sh w v h => ?_⟩⟩
  · exact absurd h (ne_of_bit 32 (by simp only [BitVec.getLsbD_append]; simp))
  · exact absurd h (ne_of_bit 53 (by simp only [BitVec.getLsbD_append]; simp))
  · exact absurd h (ne_of_bit 48 (by simp only [BitVec.getLsbD_append]; simp))
  · exact absurd h (ne_of_bit 48 (by simp only [BitVec.getLsbD_append]; simp))
  · exact absurd h (ne_of_bit 0 (by simp only [BitVec.getLsbD_append]; simp))
  · exact absurd h (ne_of_bit 0 (by simp only [BitVec.getLsbD_append]; simp))
  · exact absurd h (ne_of_bit 0 (by simp only [BitVec.getLsbD_append]; simp))

/-- `CsverComparesWithTheStoredByte`, `CsputStoresTheRangeChecksum`, `StoredByteInsideItsRangeIsIllegal`: `at` the first
and the last byte of the range. -/
theorem witness_Csver_Csput_StoredByte_inside :
    ((1 : Off).toNat ≤ (1 : Off).toNat ∧ (1 : Off).toNat < (1 : Off).toNat + (8 : Off).toNat) ∧
    ((1 : Off).toNat ≤ (8 : Off).toNat ∧ (8 : Off).toNat < (1 : Off).toNat + (8 : Off).toNat) := by decide

/-- The same statements: `at` just before the range and just after it. -/
theorem witness_Csver_Csput_StoredByte_outside :
    ¬ ((1 : Off).toNat ≤ (0 : Off).toNat ∧ (0 : Off).toNat < (1 : Off).toNat + (8 : Off).toNat) ∧
    ¬ ((1 : Off).toNat ≤ (9 : Off).toNat ∧ (9 : Off).toNat < (1 : Off).toNat + (8 : Off).toNat) := by decide

/-- `CsverComparesWithTheStoredByte`, `CsputStoresTheRangeChecksum`: `at` = `BUFLEN`, and a range one byte too long. -/
theorem witness_Csver_Csput_truncated :
    (exState.buflen.toNat ≤ (9 : Off).toNat ∧
      ¬ ((1 : Off).toNat ≤ (9 : Off).toNat ∧ (9 : Off).toNat < (1 : Off).toNat + (8 : Off).toNat)) ∧
    (exState.buflen.toNat < (1 : Off).toNat + (9 : Off).toNat ∧
      ¬ ((1 : Off).toNat ≤ (0 : Off).toNat ∧ (0 : Off).toNat < (1 : Off).toNat + (9 : Off).toNat)) := by decide

/-- `CsverComparesWithTheStoredByte`, `ReportsFollowThePriority`: a stored byte that matches this engine's `ALG`. -/
theorem witness_Csver_match :
    let q := exState.rangeBytes 1 8
    let c := Config.alg.fin (q.foldl Config.alg.step Config.alg.init)
    q.length = (8 : Off).toNat ∧ (storing c).HoldsAt (1 : Off).toNat q ∧ (0 : Off).toNat < (storing c).buflen.toNat ∧
    (1 : Off).toNat + (8 : Off).toNat ≤ (storing c).buflen.toNat ∧ c = (storing c).buf.read (0 : Off).toNat :=
  ⟨by decide, holdsAt_storing _, by decide, by decide, (read_write_self _ _ _).symm⟩

/-- `CsverComparesWithTheStoredByte`, `ReportsFollowThePriority`: a stored byte that does not. -/
theorem witness_Csver_mismatch :
    let q := exState.rangeBytes 1 8
    let c := Config.alg.fin (q.foldl Config.alg.step Config.alg.init)
    q.length = (8 : Off).toNat ∧ (storing (c + 1)).HoldsAt (1 : Off).toNat q ∧
    (0 : Off).toNat < (storing (c + 1)).buflen.toNat ∧
    (1 : Off).toNat + (8 : Off).toNat ≤ (storing (c + 1)).buflen.toNat ∧
    c ≠ (storing (c + 1)).buf.read (0 : Off).toNat := by
  refine ⟨by decide, holdsAt_storing _, by decide, by decide, ?_⟩
  rw [show (storing _).buf.read (0 : Off).toNat = _ from read_write_self _ _ _]
  intro h
  bv_omega

/-- `CsputStoresTheRangeChecksum`: the last offset of the buffer as `at`, after the range. -/
theorem witness_CsputStoresTheRangeChecksum_stores :
    ¬ ((1 : Off).toNat ≤ (8 : Off).toNat ∧ (8 : Off).toNat < (1 : Off).toNat + (7 : Off).toNat) ∧
    (exState.rangeBytes 1 7).length = (7 : Off).toNat ∧ exState.HoldsAt (1 : Off).toNat (exState.rangeBytes 1 7) ∧
    (8 : Off).toNat < exState.buflen.toNat ∧ (1 : Off).toNat + (7 : Off).toNat ≤ exState.buflen.toNat :=
  ⟨by decide, by decide, holdsAt_rangeBytes _ _ _, by decide, by decide⟩

/-- `UnpkReportsTheField`, `PackReportsThePackedByte`, `LdfReportsTheField`, `StfStoresTheField`, `UnpackForms`,
`DescriptorsAndMasks`, `FieldOutOfRangeExactlyWhenTooWide`: descriptors at the ends of the legal range. -/
theorem witness_LegalField : LegalField 0 1 ∧ LegalField 7 1 ∧ LegalField 0 8 ∧ LegalField 1 7 ∧ LegalField 5 2 := by
  unfold LegalField
  decide

/-- `IllegalDescriptorTermsAreReported`: descriptors just outside it. -/
theorem witness_IllegalDescriptorTermsAreReported : ¬ LegalField 0 0 ∧ ¬ LegalField 0 9 ∧ ¬ LegalField 1 8 ∧ ¬ LegalField 7 2 := by
  unfold LegalField
  decide

/-- `PackReportsThePackedByte`: the least value refused, and the greatest accepted with the byte of 2.3. -/
theorem witness_PackReportsThePackedByte_clauses :
    2 ^ (2 : Width).toNat ≤ (4 : Val).toNat ∧ (3 : Val).toNat < 2 ^ (2 : Width).toNat ∧
    ∀ i, i < 8 → (0x75 : Byte).getLsbD i =
      if (5 : Shift).toNat ≤ i ∧ i < (5 : Shift).toNat + (2 : Width).toNat then (3 : Val).getLsbD (i - (5 : Shift).toNat)
      else (0x15 : Byte).getLsbD i := by decide

/-- `LdfReportsTheField`, `StfStoresTheField`: the last offset inside and the first outside. -/
theorem witness_LdfStf_bounds : (8 : Off).toNat < exState.buflen.toNat ∧ exState.buflen.toNat ≤ (9 : Off).toNat := by decide

/-- `StfStoresTheField`: the value too wide (with an offset outside, the report that wins), and the greatest that fits. -/
theorem witness_StfStoresTheField_clauses :
    2 ^ (2 : Width).toNat ≤ (4 : Val).toNat ∧ (3 : Val).toNat < 2 ^ (2 : Width).toNat ∧ LegalField 5 2 :=
  ⟨by decide, by decide, witness_LegalField.2.2.2.2⟩

/-- `CommandsKeepBuflenAndHostSide`, `NonStoringCommandsKeepEveryByte`: each command answers a next state. -/
theorem witness_Frames_nonstoring :
    (∃ t, exec (.csum 1 8) exState = .next t) ∧ (∃ t, exec (.csver 0 1 8) exState = .next t) ∧
    (∃ t, exec (.unpk 0x55 5 2) exState = .next t) ∧ (∃ t, exec (.pack 0x15 5 2 2) exState = .next t) ∧
    (∃ t, exec (.ldf 3 0 7) exState = .next t) := ⟨⟨_, rfl⟩, ⟨_, rfl⟩, ⟨_, rfl⟩, ⟨_, rfl⟩, ⟨_, rfl⟩⟩

/-- `StoringCommandsKeepEveryOtherByte`, `CsputIsIdempotent`. -/
theorem witness_Frames_storing :
    (∃ t, exec (.csput 0 1 8) exState = .next t ∧ t.stat = 0) ∧ (∃ t, exec (.stf 3 5 2 2) exState = .next t ∧ t.stat = 0) :=
  ⟨⟨_, rfl, rfl⟩, ⟨_, rfl, by decide⟩⟩

/-- `OnlyTheseEventsChangeEachPieceOfState`: an event that changes `BUFLEN`, one that changes `BUF` and the response
registers by a command, and two that add a reply. -/
theorem witness_OnlyTheseEvents :
    (∃ t, step (State.reset.withEvents [.attach exBytes]) = .next t ∧ t.buflen ≠ 0 ∧ t.sessionOpen ≠ false) ∧
    (∃ t, step (exState.withEvents [.issue 0x7A40000300020000]) = .next t ∧ t.buf ≠ exState.buf ∧ t.res ≠ exState.res) ∧
    (∃ t, step (exState.withEvents [.observe]) = .next t ∧ t.replies ≠ []) ∧
    (∃ t, step (exState.withEvents [.readRegister .buflen]) = .next t ∧ t.replies ≠ []) :=
  ⟨⟨_, rfl, by decide, by decide⟩, ⟨_, rfl, by decide, by decide⟩, ⟨_, rfl, by decide⟩, ⟨_, rfl, by decide⟩⟩

/-- `DecodeAndEncodeAgree`. -/
theorem witness_DecodeAndEncodeAgree :
    (Instr.stf 1 7 1 1).wellFormed = true ∧ decode 0x7E20000100010000 = .ok (.stf 1 7 1 1) := by decide

/-- `IllegalWordsAreExactlyThoseListed`: a word illegal by spelling, one illegal by value, one that is neither. -/
theorem witness_IllegalWords :
    (0x8000000000000000 : CmdWord).toNat / 2 ^ 60 % 2 ^ 4 = 8 ∧
    ((0x2000000800010008 : CmdWord).toNat / 2 ^ 60 % 2 ^ 4 = 2 ∧ (0x2000000800010008 : CmdWord).toNat / 2 ^ 32 % 2 ^ 16 = 8 ∧
      (0x2000000800010008 : CmdWord).toNat / 2 ^ 16 % 2 ^ 16 = 1 ∧ (0x2000000800010008 : CmdWord).toNat % 2 ^ 16 = 8) ∧
    (ranOn exState 0x2000000800010008 = some ((0, 7, 0), exState.buf)) ∧
    (∃ t, issueWord 0x2000000900010008 exState = .next t ∧ t.stat ≠ 7) :=
  ⟨by decide, by decide, by decide, ⟨_, rfl, by decide⟩⟩

/-- `AssembledLinesAreCommands`. -/
theorem witness_AssembledLinesAreCommands : assembleWord "CSVER 0, 1, 8".toList = some 0x2000000000010008 := by decide

/-- `PseudoInstructionsMoveWholeBytes`: the last offset, and the values on both sides of 256 and of 128. -/
theorem witness_PseudoInstructionsMoveWholeBytes :
    (8 : Off).toNat < exState.buflen.toNat ∧ 256 ≤ (256 : Val).toNat ∧ (255 : Val).toNat < 256 ∧ 128 ≤ (128 : Val).toNat ∧
    (127 : Val).toNat < 128 := by decide

/-- `StepRunsTheDecodedCommand`: an issued word that does not decode. -/
theorem witness_StepRuns_illegal :
    (exState.withEvents [.issue 0x6120000300000000]).events = .issue 0x6120000300000000 :: [] ∧
    decode 0x6120000300000000 = .error .descriptor := by decide

/-- `StepRunsTheDecodedCommand`, `PlacedWordRunsNext`. -/
theorem witness_StepRuns :
    (exState.withEvents [.issue 0x4A40005500000000]).events = .issue 0x4A40005500000000 :: [] ∧
    decode 0x4A40005500000000 = .ok (.unpk 0x55 5 2) ∧
    decodeTableWord 64 0x4A40005500000000 = some (.unpk 0x55 5 2) := by decide

/-- `AttachSetsTheBuffer`: `EX`, and the longest buffer. -/
theorem witness_AttachSetsTheBuffer (bytes : List Byte) (h : bytes = exBytes ∨ bytes = List.replicate 65535 0) :
    (State.reset.withEvents [.attach bytes]).events = .attach bytes :: [] ∧
    (State.reset.withEvents [.attach bytes]).sessionOpen = false ∧ bytes.length ≤ 65535 := by
  refine ⟨rfl, rfl, ?_⟩
  rcases h with rfl | rfl
  · decide
  · exact Nat.le_of_eq List.length_replicate

/-- `AttachOutOfPlaceIsRefused`: a session open, and one byte too many. -/
theorem witness_AttachOutOfPlaceIsRefused :
    ((exState.withEvents [.attach exBytes]).events = .attach exBytes :: [] ∧
      (exState.withEvents [.attach exBytes]).sessionOpen = true) ∧
    ((State.reset.withEvents [.attach (List.replicate 65536 0)]).events = .attach (List.replicate 65536 0) :: [] ∧
      (State.reset.withEvents [.attach (List.replicate 65536 0)]).sessionOpen = false ∧
      65535 < (List.replicate 65536 (0 : Byte)).length) := by
  refine ⟨⟨rfl, rfl⟩, rfl, rfl, ?_⟩
  rw [List.length_replicate]
  decide

/-- `EngineIsNeverStuck`: both sides of its equivalence occur. -/
theorem witness_EngineIsNeverStuck : State.reset.HostDutiful ∧ ¬ (exState.withEvents [.attach exBytes]).HostDutiful :=
  ⟨trivial, fun h => absurd h.1 (by decide)⟩

/-- `DetachHandsTheBytesBack`, `ResetEventClearsTheEngine`, `ObserveReadsTheReport`. -/
theorem witness_HostEvents :
    (exState.withEvents [.detach]).events = .detach :: [] ∧ (exState.withEvents [.reset]).events = .reset :: [] ∧
    (exState.withEvents [.observe]).events = .observe :: [] ∧ exState.events = [] := by decide

/-- `DetachAfterAttachReturnsTheBytes`. -/
theorem witness_DetachAfterAttachReturnsTheBytes :
    ∃ t, step (State.reset.withEvents [.attach exBytes, .detach]) = .next t ∧ t.buflen = 9 := ⟨_, rfl, by decide⟩

/-- `StepKeepsTheInvariant`: a state with a buffer, and a step that stores. -/
theorem witness_StepKeepsTheInvariant :
    (exState.withEvents [.issue 0x7A40000300020000]).Inv ∧
    ∃ t, step (exState.withEvents [.issue 0x7A40000300020000]) = .next t :=
  ⟨⟨by decide, by decide, ⟨.ok, by decide, by decide⟩, by decide, by decide, by decide⟩, ⟨_, rfl⟩⟩

/-- `OutcomeIsAFunctionOfWordAndBuffer`: two states that differ in what they have been through. -/
theorem witness_OutcomeIsAFunctionOfWordAndBuffer :
    let other := (exState.raise .fieldOutOfRange 3).reply (.report 0 5 3)
    exState.buflen = other.buflen ∧ (∀ a, a < exState.buflen.toNat → exState.buf.read a = other.buf.read a) ∧
    exState ≠ other := by decide

/-- `CommandsReadOnlyTheBytesTheyName`: buffers that differ outside the bytes named. -/
theorem witness_CommandsReadOnlyTheBytesTheyName :
    exState.buflen = (storing 1).buflen ∧ exState.buf ≠ (storing 1).buf ∧
    (∀ i, i < (8 : Off).toNat → exState.buf.read ((1 : Off).toNat + i) = (storing 1).buf.read ((1 : Off).toNat + i)) ∧
    exState.buf.read (8 : Off).toNat = (storing 1).buf.read (8 : Off).toNat := by decide

/-- `ReportsFollowThePriority`: a word of each rank, with everything of lower rank wrong as well where it can be. -/
theorem witness_ReportsFollowThePriority :
    decode 0x7120000900040000 = .error .descriptor ∧ IllegalByValue (.csver 4 1 9) ∧
    (¬ IllegalByValue (.stf 9 5 2 4) ∧ ValueTooWide (.stf 9 5 2 4)) ∧
    (¬ IllegalByValue (.stf 9 5 2 3) ∧ ¬ ValueTooWide (.stf 9 5 2 3) ∧ OutOfBounds exState.buflen.toNat (.stf 9 5 2 3)) ∧
    (¬ IllegalByValue (.csver 0 1 8) ∧ ¬ ValueTooWide (.csver 0 1 8) ∧
      ¬ OutOfBounds exState.buflen.toNat (.csver 0 1 8)) := by
  unfold IllegalByValue ValueTooWide OutOfBounds
  decide

/-- `ReportsFollowThePriority`, no class applying before the data: a word that is no `CSVER`, and a `CSVER` with the bytes of
its range (the stored byte as in `witness_Csver_match` and `witness_Csver_mismatch`). -/
theorem witness_ReportsFollowThePriority_data :
    (decode 0x6100000800000000 = .ok (.ldf 8 0 8) ∧ ¬ OutOfBounds exState.buflen.toNat (.ldf 8 0 8) ∧
      ∀ pos start len, Instr.ldf 8 0 8 ≠ .csver pos start len) ∧
    (decode 0x2000000000010008 = .ok (.csver 0 1 8) ∧ (exState.rangeBytes 1 8).length = (8 : Off).toNat ∧
      exState.HoldsAt (1 : Off).toNat (exState.rangeBytes 1 8)) :=
  ⟨⟨by decide, by unfold OutOfBounds; decide, nofun⟩, by decide, by decide, holdsAt_rangeBytes _ _ _⟩

/-- `ReportOffsetsByClass`: a step that ends in each class. -/
theorem witness_ReportOffsetsByClass :
    (∃ t, exec (.ldf 8 0 8) exState = .next t ∧ t.stat = 0) ∧
    (∃ s t, exec (.csver 0 1 8) s = .next t ∧ t.stat = 2) ∧
    (∃ t, exec (.ldf 9 0 8) exState = .next t ∧ t.stat = 4) ∧
    (∃ t, exec (.stf 9 5 2 4) exState = .next t ∧ t.stat = 5) ∧
    (∃ t, exec (.pack 0x15 5 2 4) exState = .next t ∧ t.stat = 5) ∧
    (∃ t, exec (.csver 1 1 8) exState = .next t ∧ t.stat = 7) := by
  refine ⟨⟨_, rfl, by decide⟩, ?_, ⟨_, rfl, by decide⟩, ⟨_, rfl, by decide⟩, ⟨_, rfl, by decide⟩, ⟨_, rfl, by decide⟩⟩
  let c := compute Config.alg (exState.rangeBytes 1 8)
  refine ⟨storing (c + 1), _, rfl, ?_⟩
  rw [csverBy_of_ok _ _ _ _ _ ⟨by decide, by decide, by decide⟩, if_neg]
  · rfl
  · rw [show (storing (c + 1)).buf.read (0 : Off).toNat = _ from read_write_self _ _ _]
    change compute Config.alg ((storing (c + 1)).rangeBytes 1 8) ≠ c + 1
    rw [bytes_storing]
    change c ≠ c + 1
    intro h
    bv_omega

/-- `ReportOffsetsByClass`, an illegal word. -/
theorem witness_ReportOffsetsByClass_illegal : decode 0x6120000300000000 = .error .descriptor := by decide

/-- `ErrorsLeaveTheBufferAlone`. -/
theorem witness_ErrorsLeaveTheBufferAlone :
    ∃ t, issueWord 0x7A40000900020000 exState = .next t ∧ t.stat ≠ 0 := ⟨_, rfl, by decide⟩

/-- `WithoutABufferOnlyTheEmptySumSucceeds`. -/
theorem witness_WithoutABuffer : State.reset.buflen = 0 ∧ (Instr.pack 0 0 1 1).wellFormed = true := by decide

/-- `VerifyAgreesWithComputeAndPut`: operands that pass, a stored byte that differs, and a changed body byte under an
`ALG` that is `Sensitive7`. -/
theorem witness_VerifyAgreesWithComputeAndPut :
    ¬ ((1 : Off).toNat ≤ (0 : Off).toNat ∧ (0 : Off).toNat < (1 : Off).toNat + (8 : Off).toNat) ∧
    (0 : Off).toNat < exState.buflen.toNat ∧ (1 : Off).toNat + (8 : Off).toNat ≤ exState.buflen.toNat ∧
    exState.buf.read (0 : Off).toNat ≠ (csumBy algXor7 1 8 exState).res ∧ Sensitive7 algXor7 ∧ 7 < (8 : Off).toNat ∧
    (0x21 : Byte).setWidth 7 ≠ ((csputBy algXor7 0 1 8 exState).buf.read ((1 : Off).toNat + 7)).setWidth 7 :=
  ⟨by decide, by decide, by decide, by decide, sensitive7_algXor7, by decide, by decide⟩

/-- `StoringIntoTheBodyMakesTheChecksumStale`: steps 1 and 3 of program P1. -/
theorem witness_StoringIntoTheBody :
    let t := csputBy algXor7 0 1 8 exState
    Sensitive7 algXor7 ∧ t.stat = 0 ∧ (1 : Off).toNat ≤ (1 : Off).toNat ∧ (1 : Off).toNat < (1 : Off).toNat + (8 : Off).toNat ∧
    ∃ u, exec (.stf 1 0 7 0x42) t = .next u ∧ u.stat = 0 ∧
      (u.buf.read (1 : Off).toNat).setWidth 7 ≠ (t.buf.read (1 : Off).toNat).setWidth 7 :=
  ⟨sensitive7_algXor7, by decide, by decide, by decide, ⟨_, rfl, by decide, by decide⟩⟩

/-- `LoadAfterStoreOfAField`, `PackUnpackLaws`: two fields that touch without overlapping, the greatest values. -/
theorem witness_TwoFields :
    LegalField 0 5 ∧ LegalField 5 2 ∧ (8 : Off).toNat < exState.buflen.toNat ∧ (31 : Val).toNat < 2 ^ (5 : Width).toNat ∧
    (0 : Val).toNat < 2 ^ (5 : Width).toNat ∧ (3 : Val).toNat < 2 ^ (2 : Width).toNat ∧
    (0 : Shift).toNat + (5 : Width).toNat ≤ (5 : Shift).toNat := by
  unfold LegalField
  decide

/-- `LoadAfterStoreOfAField`: a state reached by one more store elsewhere, with the byte as the first `STF` left it. -/
theorem witness_LoadAfterStoreOfAField_later :
    ∃ t t', exec (.stf 8 0 5 31) exState = .next t ∧ exec (.stf 1 0 8 0) t = .next t' ∧
      t'.buflen = t.buflen ∧ t'.buf.read (8 : Off).toNat = t.buf.read (8 : Off).toNat :=
  ⟨_, _, rfl, rfl, rfl, by decide⟩

/-- `UnpackForms`: two bytes that agree in the field only. -/
theorem witness_UnpackForms : (0x55 : Byte) &&& fmask 5 2 = (0xCA : Byte) &&& fmask 5 2 := by decide

/-- `FixedWidthFields`. -/
theorem witness_FixedWidthFields : (127 : Val).toNat < 128 ∧ (255 : Val).toNat < 256 := by decide

/-- `CandidatesAreSafeAndSensitive`: a byte changed in bit 7 only. -/
theorem witness_CandidatesAreSafeAndSensitive :
    0 < [(0x4C : Byte), 0x65].length ∧ (0xCC : Byte).setWidth 7 = ([(0x4C : Byte), 0x65][0]).setWidth 7 := by decide

/-- `FrameOperandsFollowTheRegions`: the last of six source blocks. -/
theorem witness_FrameOperandsFollowTheRegions : 5 < 6 ∧ sourceCountInRange 6 = true := by decide

/-- `EncodedFrameVerifies`: a buffer as long as the miniature frame of program P4. -/
theorem witness_EncodedFrameVerifies :
    (State.reset.attached (List.replicate 115 0)).buflen.toNat = frameLength 5 3 1 := by decide

/-- `EncodedUnwrappedBodyVerifies`: the shortest buffer, whose body is empty. -/
theorem witness_EncodedUnwrappedBodyVerifies : 20 ≤ (State.reset.attached (List.replicate 20 0)).buflen.toNat := by decide

/-- `HostReadsEveryRegister`: each register, with a session open and with none. -/
theorem witness_HostReadsEveryRegister (r : HostRegister) :
    (exState.withEvents [.readRegister r]).events = .readRegister r :: [] ∧ exState.sessionOpen = true ∧
    (State.reset.withEvents [.readRegister r]).events = .readRegister r :: [] ∧ State.reset.sessionOpen = false :=
  ⟨rfl, rfl, rfl, rfl⟩

end Sys2Proof.Tests
end

/-! SUPPORT. The family of the state: what an event and a command leave alone, the invariant of the engine's state, and the
law that an outcome depends on the word and the buffer only. The lemmas come first, the settled statements last. -/

namespace Sys2Proof.Machine

/-! ### Issued words, and what a command leaves alone -/

theorem issueWord_of_decode_ok {cw : CmdWord} {i : Instr} (h : decode cw = .ok i) (s : State) :
    issueWord cw s = exec i s := by
  simp [issueWord, h]

theorem issueWord_of_decode_error {cw : CmdWord} {r : IllegalWord} (h : decode cw = .error r) (s : State) :
    issueWord cw s = .next (s.raise .illegalCommand 0) := by
  simp [issueWord, h]

theorem decode_of_decodeTableWord {nbits w : Nat} {i : Instr} (h : decodeTableWord nbits w = some i) :
    decode (tableWord nbits w) = .ok i := by
  unfold decodeTableWord at h
  split at h
  · next hd => rw [hd, Option.some.inj h]
  · cases h

theorem ending_of_exec {i : Instr} {s t : State} (h : exec i s = .next t) : Ending s t := by
  obtain ⟨u, hu, hend⟩ := exec_ending i s
  cases hu.symm.trans h
  exact hend

theorem ending_of_issueWord {cw : CmdWord} {s t : State} (h : issueWord cw s = .next t) : Ending s t := by
  obtain ⟨u, hu, hend⟩ := issueWord_ending cw s
  cases hu.symm.trans h
  exact hend

/-- However a command ends, `BUFLEN`, the session and the host's side are as before. -/
theorem Ending.frame {s t : State} (h : Ending s t) :
    t.buflen = s.buflen ∧ t.sessionOpen = s.sessionOpen ∧ t.events = s.events ∧ t.replies = s.replies := by
  cases h with
  | raised c e hc hok h => simp [h]
  | finished r h => simp [h]
  | stored o b r ho h => simp [h]

/-- The commands that may write a byte (`20_memory.md` R32). -/
def StoringCommand (i : Instr) : Prop :=
  (∃ pos start len, i = .csput pos start len) ∨ ∃ off sh w v, i = .stf off sh w v

/-- Every command but `CSPUT` and `STF` leaves `BUF` as it is, as data (`20_memory.md` R30). -/
theorem exec_keeps_buf {i : Instr} {s t : State} (h : exec i s = .next t) (hi : ¬ StoringCommand i) : t.buf = s.buf := by
  cases i with
  | csum start len =>
    cases h
    rcases csumBy_cases Config.alg start len s with ⟨_, h⟩ | ⟨_, h⟩ <;> simp [h]
  | csver pos start len =>
    cases h
    rcases csverBy_cases Config.alg pos start len s with ⟨_, h⟩ | ⟨_, _, h⟩ | ⟨_, _, h⟩ | ⟨_, _, h⟩ <;> simp [h]
  | csput pos start len => exact absurd (.inl ⟨_, _, _, rfl⟩) hi
  | unpk b sh w =>
    rcases execUnpk_cases b sh w s with ⟨_, hu⟩ | ⟨_, hu⟩ <;> cases hu.symm.trans h <;> rfl
  | pack b sh w v =>
    rcases execPack_cases b sh w v s with ⟨_, hu⟩ | ⟨_, _, hu⟩ | ⟨_, _, hu⟩ <;> cases hu.symm.trans h <;> rfl
  | ldf off sh w =>
    rcases execLdf_cases off sh w s with ⟨_, hu⟩ | ⟨_, _, hu⟩ | ⟨_, _, hu⟩ <;> cases hu.symm.trans h <;> rfl
  | stf off sh w v => exact absurd (.inr ⟨_, _, _, _, rfl⟩) hi

theorem exists_stores_of_issueWord_buf_ne {cw : CmdWord} {s t : State} (h : issueWord cw s = .next t)
    (hbuf : t.buf ≠ s.buf) : ∃ i, decode cw = .ok i ∧ StoringCommand i := by
  cases hd : decode cw with
  | ok i =>
    rw [issueWord_of_decode_ok hd] at h
    exact ⟨i, rfl, by_contra fun hi => hbuf (exec_keeps_buf h hi)⟩
  | error r =>
    rw [issueWord_of_decode_error hd] at h
    cases h
    exact absurd rfl hbuf

/-! ### What a step can do -/

/-- How a state comes out of one host event that the machine accepts, one case per event. -/
inductive AfterEvent (s : State) : HostEvent → State → Prop where
  | reset : AfterEvent s .reset (resetEngine s)
  | attach (bytes : List Byte) (hclosed : s.sessionOpen = false) (hlen : bytes.length ≤ 65535) :
      AfterEvent s (.attach bytes) (s.attached bytes)
  | detach : AfterEvent s .detach (detachBuffer s)
  | issue (cw : CmdWord) (t : State) (h : issueWord cw s = .next t) : AfterEvent s (.issue cw) t
  | observe : AfterEvent s .observe (observeReport s)
  | readRegister (r : HostRegister) : AfterEvent s (.readRegister r) (readRegister r s)

theorem afterEvent_of_runEvent {e : HostEvent} {s t : State} (h : runEvent e s = .next t) : AfterEvent s e t := by
  cases e with
  | reset => cases h; exact .reset
  | attach bytes =>
    rw [runEvent_attach] at h
    rcases attachBuffer_cases bytes s with ⟨_, ha⟩ | ⟨hclosed, hlen, ha⟩ | ⟨_, _, ha⟩ <;> cases ha.symm.trans h
    exact .attach bytes hclosed hlen
  | detach => cases h; exact .detach
  | issue cw => exact .issue cw t h
  | observe => cases h; exact .observe
  | readRegister r => cases h; exact .readRegister r

theorem afterEvent_of_step {s t : State} {e : HostEvent} {es : List HostEvent} (hev : s.events = e :: es)
    (h : step s = .next t) : AfterEvent (s.withEvents es) e t :=
  afterEvent_of_runEvent ((step_event s e es hev).symm.trans h)

theorem hostDutiful_of_waiting {s : State} (h : s.events = []) : s.HostDutiful := by
  simp [State.HostDutiful, h]

theorem hostDutiful_attach_iff {s : State} {bytes : List Byte} {es : List HostEvent}
    (h : s.events = .attach bytes :: es) : s.HostDutiful ↔ s.sessionOpen = false ∧ bytes.length ≤ 65535 := by
  simp [State.HostDutiful, h]

theorem hostDutiful_of_not_attach {s : State} {e : HostEvent} {es : List HostEvent} (h : s.events = e :: es)
    (he : ∀ bytes, e ≠ .attach bytes) : s.HostDutiful := by
  unfold State.HostDutiful
  rw [h]
  split
  · next heq => cases heq; exact absurd rfl (he _)
  · trivial

/-- An event other than `Attach` always has a next state. -/
theorem runEvent_next_of_not_attach (e : HostEvent) (s : State) (he : ∀ bytes, e ≠ .attach bytes) :
    ∃ t, runEvent e s = .next t := by
  cases e with
  | reset => exact ⟨_, rfl⟩
  | attach bytes => exact absurd rfl (he bytes)
  | detach => exact ⟨_, rfl⟩
  | issue cw => obtain ⟨t, ht, _⟩ := issueWord_ending cw s; exact ⟨t, ht⟩
  | observe => exact ⟨_, rfl⟩
  | readRegister r => exact ⟨_, rfl⟩

/-- Every step goes on while the host keeps its duty, and is one of the two refusals of `Attach` when it does not
(`60_exceptions.md` R116, R131). -/
theorem step_next_or_refused (s : State) :
    (s.HostDutiful ∧ ∃ t, step s = .next t) ∨
    (¬ s.HostDutiful ∧ (step s = .refused .attachDuringSession ∨ step s = .refused .attachTooLong)) := by
  rcases hev : s.events with _ | ⟨e, es⟩
  · exact .inl ⟨hostDutiful_of_waiting hev, s, step_waiting s hev⟩
  rw [step_event s e es hev]
  by_cases he : ∀ bytes, e ≠ .attach bytes
  · exact .inl ⟨hostDutiful_of_not_attach hev he, runEvent_next_of_not_attach e _ he⟩
  obtain ⟨bytes, rfl⟩ : ∃ bytes, e = .attach bytes := by simpa using he
  rw [hostDutiful_attach_iff hev, runEvent_attach]
  rcases attachBuffer_cases bytes (s.withEvents es) with ⟨hopen, h⟩ | ⟨hclosed, hlen, h⟩ | ⟨_, hlong, h⟩
  · rw [withEvents_sessionOpen] at hopen
    exact .inr ⟨by simp [hopen], .inl h⟩
  · exact .inl ⟨⟨hclosed, hlen⟩, _, h⟩
  · exact .inr ⟨fun hd => absurd hd.2 (Nat.not_le_of_lt hlong), .inr h⟩

/-! ### The invariant -/

theorem stat_eq_zero_iff (c : ReportClass) : c.stat = 0 ↔ c = .ok := by
  cases c <;> decide

/-- The host's two lists are outside the invariant. -/
theorem State.Inv.withHostSide {s : State} (h : s.Inv) (es : List HostEvent) (rs : List HostReply) :
    State.Inv { s with events := es, replies := rs } :=
  ⟨h.bufCanonical, h.bufInside, h.statReported, h.okHasNoOffset, h.errorHasNoResult, h.closedHasNoBuffer⟩

theorem State.Inv.withEvents {s : State} (h : s.Inv) (es : List HostEvent) : (s.withEvents es).Inv :=
  h.withHostSide es s.replies

theorem State.Inv.reply {s : State} (h : s.Inv) (r : HostReply) : (s.reply r).Inv :=
  h.withHostSide s.events (s.replies ++ [r])

theorem inv_resetEngine (s : State) : (resetEngine s).Inv where
  bufCanonical := rfl
  bufInside := by simp
  statReported := ⟨.ok, rfl, rfl⟩
  okHasNoOffset _ := rfl
  errorHasNoResult _ := rfl
  closedHasNoBuffer _ := rfl

/-- The bytes fill the buffer exactly, because their number fits in `BUFLEN` (`60_exceptions.md` R128). -/
theorem State.Inv.attached {s : State} (h : s.Inv) {bytes : List Byte} (hlen : bytes.length ≤ 65535) :
    (s.attached bytes).Inv where
  bufCanonical := wf_ofBytes 0 bytes
  bufInside c hc := by
    have hlt := (mem_ofBytes 0 bytes c hc).2
    have hn : (s.attached bytes).buflen.toNat = bytes.length := Nat.mod_eq_of_lt (by omega)
    omega
  statReported := h.statReported
  okHasNoOffset := h.okHasNoOffset
  errorHasNoResult := h.errorHasNoResult
  closedHasNoBuffer hclosed := by simp at hclosed

theorem State.Inv.unattached {s : State} (h : s.Inv) : s.unattached.Inv where
  bufCanonical := rfl
  bufInside := by simp
  statReported := h.statReported
  okHasNoOffset := h.okHasNoOffset
  errorHasNoResult := h.errorHasNoResult
  closedHasNoBuffer _ := rfl

theorem State.Inv.raise {s : State} (h : s.Inv) {c : ReportClass} (hc : c.reported = true) (hok : c ≠ .ok) (e : Off) :
    (s.raise c e).Inv where
  bufCanonical := h.bufCanonical
  bufInside := h.bufInside
  statReported := ⟨c, hc, rfl⟩
  okHasNoOffset hz := absurd ((stat_eq_zero_iff c).mp hz) hok
  errorHasNoResult _ := rfl
  closedHasNoBuffer := h.closedHasNoBuffer

theorem State.Inv.done {s : State} (h : s.Inv) (r : Byte) : (s.done r).Inv where
  bufCanonical := h.bufCanonical
  bufInside := h.bufInside
  statReported := ⟨.ok, rfl, rfl⟩
  okHasNoOffset _ := rfl
  errorHasNoResult hne := absurd rfl hne
  closedHasNoBuffer := h.closedHasNoBuffer

theorem State.Inv.memWrite {s : State} (h : s.Inv) {o : Nat} (ho : o < s.buflen.toNat) (b : Byte) :
    (s.memWrite o b).Inv where
  bufCanonical := wf_write s.buf o b h.bufCanonical
  bufInside c hc := by
    rcases mem_write s.buf o b c hc with rfl | hc
    · exact ho
    · exact h.bufInside c hc
  statReported := h.statReported
  okHasNoOffset := h.okHasNoOffset
  errorHasNoResult := h.errorHasNoResult
  closedHasNoBuffer := h.closedHasNoBuffer

theorem Ending.keeps_inv {s t : State} (hend : Ending s t) (h : s.Inv) : t.Inv := by
  cases hend with
  | raised c e hc hok ht => exact ht ▸ h.raise hc hok e
  | finished r ht => exact ht ▸ h.done r
  | stored o b r ho ht => exact ht ▸ (h.memWrite ho b).done r

theorem AfterEvent.keeps_inv {s t : State} {e : HostEvent} (hafter : AfterEvent s e t) (h : s.Inv) : t.Inv := by
  cases hafter with
  | reset => exact inv_resetEngine s
  | attach bytes hclosed hlen => exact h.attached hlen
  | detach => exact h.unattached.reply _
  | issue cw _ ht => exact (ending_of_issueWord ht).keeps_inv h
  | observe => exact h.reply _
  | readRegister r => exact h.reply _

/-! ### Two engines with the same buffer -/

/-- The same `BUFLEN` and the same bytes below it: all of the state that `10_state.md` R16 lets an outcome depend on. -/
structure SameBuffer (s₁ s₂ : State) : Prop where
  buflen : s₁.buflen = s₂.buflen
  bytes : ∀ a, a < s₁.buflen.toNat → s₁.buf.read a = s₂.buf.read a

/-- The same report, and the same buffer after it. -/
structure SameOutcome (t₁ t₂ : State) : Prop extends SameBuffer t₁ t₂ where
  res : t₁.res = t₂.res
  stat : t₁.stat = t₂.stat
  eoff : t₁.eoff = t₂.eoff

section
variable {s₁ s₂ : State}

theorem SameBuffer.raise (h : SameBuffer s₁ s₂) (c : ReportClass) (e : Off) :
    SameOutcome (s₁.raise c e) (s₂.raise c e) := ⟨⟨h.buflen, h.bytes⟩, rfl, rfl, rfl⟩

theorem SameBuffer.done (h : SameBuffer s₁ s₂) (r : Byte) : SameOutcome (s₁.done r) (s₂.done r) :=
  ⟨⟨h.buflen, h.bytes⟩, rfl, rfl, rfl⟩

theorem SameBuffer.memWrite (h : SameBuffer s₁ s₂) (o : Nat) (b : Byte) :
    SameBuffer (s₁.memWrite o b) (s₂.memWrite o b) where
  buflen := h.buflen
  bytes a ha := by
    rw [memWrite_buf, memWrite_buf, read_write, read_write, h.bytes a ha]

theorem SameBuffer.rangeBytes (h : SameBuffer s₁ s₂) {start len : Nat} (hle : start + len ≤ s₁.buflen.toNat) :
    s₁.rangeBytes start len = s₂.rangeBytes start len :=
  rangeBytes_congr s₁ s₂ start len fun i hi => h.bytes (start + i) (by omega)

theorem SameBuffer.memRead (h : SameBuffer s₁ s₂) {o : Nat} (ho : o < s₁.buflen.toNat) :
    s₁.memRead o = s₂.memRead o := h.bytes o ho

/-- Two engines that take the same branch of a test have the same outcome if they have it in each branch. -/
theorem SameOutcome.ite {c : Prop} [Decidable c] {t₁ t₂ u₁ u₂ : State} (ht : c → SameOutcome t₁ t₂)
    (hu : ¬ c → SameOutcome u₁ u₂) : SameOutcome (if c then t₁ else u₁) (if c then t₂ else u₂) := by
  split
  · exact ht ‹_›
  · exact hu ‹_›

theorem SameBuffer.withDescriptor (h : SameBuffer s₁ s₂) (sh : Shift) (w : Width) {t₁ t₂ : State}
    (ht : SameOutcome t₁ t₂) : SameOutcome (withDescriptor sh w s₁ t₁) (withDescriptor sh w s₂ t₂) :=
  .ite (fun _ => ht) fun _ => h.raise _ _

theorem SameBuffer.csumBy (h : SameBuffer s₁ s₂) (alg : Alg) (start len : Off) :
    SameOutcome (csumBy alg start len s₁) (csumBy alg start len s₂) := by
  unfold Machine.csumBy
  rw [← h.buflen]
  refine .ite (fun hin => ?_) fun _ => h.raise _ _
  rw [h.rangeBytes ((rangeInBounds_iff _ _ _).mp hin)]
  exact h.done _

theorem SameBuffer.csverBy (h : SameBuffer s₁ s₂) (alg : Alg) (pos start len : Off) :
    SameOutcome (csverBy alg pos start len s₁) (csverBy alg pos start len s₂) := by
  unfold Machine.csverBy
  rw [← h.buflen]
  refine .ite (fun _ => h.raise _ _) fun _ => .ite (fun hin => ?_) fun _ => h.raise _ _
  rw [Bool.and_eq_true, offInBounds_iff, rangeInBounds_iff] at hin
  rw [h.rangeBytes hin.2, h.memRead hin.1]
  exact .ite (fun _ => h.done _) fun _ => h.raise _ _

theorem SameBuffer.csputBy (h : SameBuffer s₁ s₂) (alg : Alg) (pos start len : Off) :
    SameOutcome (csputBy alg pos start len s₁) (csputBy alg pos start len s₂) := by
  unfold Machine.csputBy
  rw [← h.buflen]
  refine .ite (fun _ => h.raise _ _) fun _ => .ite (fun hin => ?_) fun _ => h.raise _ _
  rw [Bool.and_eq_true, offInBounds_iff, rangeInBounds_iff] at hin
  rw [h.rangeBytes hin.2]
  exact (h.memWrite _ _).done _

/-- The statelessness law command by command (`10_state.md` R16). -/
theorem SameBuffer.exec (h : SameBuffer s₁ s₂) (i : Instr) :
    ∃ t₁ t₂, exec i s₁ = .next t₁ ∧ exec i s₂ = .next t₂ ∧ SameOutcome t₁ t₂ := by
  cases i with
  | csum start len => exact ⟨_, _, rfl, rfl, h.csumBy _ start len⟩
  | csver pos start len => exact ⟨_, _, rfl, rfl, h.csverBy _ pos start len⟩
  | csput pos start len => exact ⟨_, _, rfl, rfl, h.csputBy _ pos start len⟩
  | unpk b sh w => exact ⟨_, _, rfl, rfl, h.withDescriptor sh w (h.done _)⟩
  | pack b sh w v =>
    exact ⟨_, _, rfl, rfl, h.withDescriptor sh w (.ite (fun _ => h.done _) fun _ => h.raise _ _)⟩
  | ldf off sh w =>
    refine ⟨_, _, rfl, rfl, h.withDescriptor sh w ?_⟩
    rw [← h.buflen]
    refine .ite (fun hin => ?_) fun _ => h.raise _ _
    rw [h.memRead ((offInBounds_iff _ _).mp hin)]
    exact h.done _
  | stf off sh w v =>
    refine ⟨_, _, rfl, rfl, h.withDescriptor sh w (.ite (fun _ => ?_) fun _ => h.raise _ _)⟩
    rw [← h.buflen]
    refine .ite (fun hin => ?_) fun _ => h.raise _ _
    rw [h.memRead ((offInBounds_iff _ _).mp hin)]
    exact (h.memWrite _ _).done _

theorem SameBuffer.issueWord (h : SameBuffer s₁ s₂) (cw : CmdWord) :
    ∃ t₁ t₂, issueWord cw s₁ = .next t₁ ∧ issueWord cw s₂ = .next t₂ ∧ SameOutcome t₁ t₂ := by
  cases hd : decode cw with
  | ok i =>
    rw [issueWord_of_decode_ok hd, issueWord_of_decode_ok hd]
    exact h.exec i
  | error r =>
    rw [issueWord_of_decode_error hd, issueWord_of_decode_error hd]
    exact ⟨_, _, rfl, rfl, h.raise _ _⟩

end

/-! ### With no buffer attached -/

theorem raise_stat_ne_zero (s : State) {c : ReportClass} (hc : c ≠ .ok) (e : Off) : (s.raise c e).stat ≠ 0 :=
  fun h => hc ((stat_eq_zero_iff c).mp h)

section
variable {s : State}

theorem csumBy_stat_of_no_buffer (hs : s.buflen = 0) (alg : Alg) (start len : Off) :
    (csumBy alg start len s).stat = 0 ↔ start = 0 ∧ len = 0 := by
  have hn : s.buflen.toNat = 0 := by simp [hs]
  rcases csumBy_cases alg start len s with ⟨hle, h⟩ | ⟨hlt, h⟩
  · rw [h]
    exact iff_of_true rfl ⟨BitVec.eq_of_toNat_eq (by simp; omega), BitVec.eq_of_toNat_eq (by simp; omega)⟩
  · rw [h]
    refine iff_of_false (raise_stat_ne_zero s (by decide) _) ?_
    rintro ⟨rfl, rfl⟩
    simp [hn] at hlt

theorem not_checksumOperandsOk_of_no_buffer (hs : s.buflen = 0) (pos start len : Off) :
    ¬ checksumOperandsOk s.buflen pos start len := by
  rintro ⟨_, hpos, _⟩
  simp [hs] at hpos

theorem csverBy_stat_of_no_buffer (hs : s.buflen = 0) (alg : Alg) (pos start len : Off) :
    (csverBy alg pos start len s).stat ≠ 0 := by
  have hbad := not_checksumOperandsOk_of_no_buffer hs pos start len
  rcases csverBy_cases alg pos start len s with ⟨_, h⟩ | ⟨hok, _⟩ | ⟨hok, _⟩ | ⟨_, _, h⟩
  · exact h ▸ raise_stat_ne_zero s (by decide) _
  · exact absurd hok hbad
  · exact absurd hok hbad
  · exact h ▸ raise_stat_ne_zero s (by decide) _

theorem csputBy_stat_of_no_buffer (hs : s.buflen = 0) (alg : Alg) (pos start len : Off) :
    (csputBy alg pos start len s).stat ≠ 0 := by
  have hbad := not_checksumOperandsOk_of_no_buffer hs pos start len
  rcases csputBy_cases alg pos start len s with ⟨_, h⟩ | ⟨hok, _⟩ | ⟨_, _, h⟩
  · exact h ▸ raise_stat_ne_zero s (by decide) _
  · exact absurd hok hbad
  · exact h ▸ raise_stat_ne_zero s (by decide) _

theorem execUnpk_stat (b : Byte) {sh : Shift} {w : Width} (hl : LegalField sh w) (s : State) :
    ∃ t, execUnpk b sh w s = .next t ∧ t.stat = 0 := by
  rcases execUnpk_cases b sh w s with ⟨hbad, _⟩ | ⟨_, h⟩
  · exact absurd hl hbad
  · exact ⟨_, h, rfl⟩

theorem execPack_stat (b : Byte) {sh : Shift} {w : Width} (hl : LegalField sh w) (v : Val) (s : State) :
    ∃ t, execPack b sh w v s = .next t ∧ (t.stat = 0 ↔ v.toNat < 2 ^ w.toNat) := by
  rcases execPack_cases b sh w v s with ⟨hbad, _⟩ | ⟨_, hwide, h⟩ | ⟨_, hfits, h⟩
  · exact absurd hl hbad
  · exact ⟨_, h, iff_of_false (raise_stat_ne_zero s (by decide) _) (Nat.not_lt_of_le hwide)⟩
  · exact ⟨_, h, iff_of_true rfl hfits⟩

theorem execLdf_stat_of_no_buffer (hs : s.buflen = 0) (off : Off) (sh : Shift) (w : Width) :
    ∃ t, execLdf off sh w s = .next t ∧ t.stat ≠ 0 := by
  rcases execLdf_cases off sh w s with ⟨_, h⟩ | ⟨_, _, h⟩ | ⟨_, hin, _⟩
  · exact ⟨_, h, raise_stat_ne_zero s (by decide) _⟩
  · exact ⟨_, h, raise_stat_ne_zero s (by decide) _⟩
  · simp [hs] at hin

theorem execStf_stat_of_no_buffer (hs : s.buflen = 0) (off : Off) (sh : Shift) (w : Width) (v : Val) :
    ∃ t, execStf off sh w v s = .next t ∧ t.stat ≠ 0 := by
  rcases execStf_cases off sh w v s with ⟨_, h⟩ | ⟨_, _, h⟩ | ⟨_, _, _, h⟩ | ⟨_, _, hin, _⟩
  · exact ⟨_, h, raise_stat_ne_zero s (by decide) _⟩
  · exact ⟨_, h, raise_stat_ne_zero s (by decide) _⟩
  · exact ⟨_, h, raise_stat_ne_zero s (by decide) _⟩
  · simp [hs] at hin

end

/-! ### The statements of the family -/

/-- Settles O31: each event, and each way a command can end, keeps the invariant. -/
theorem stepKeepsTheInvariant : Obligations.StepKeepsTheInvariant := by
  intro s t hinv h
  rcases hev : s.events with _ | ⟨e, es⟩
  · cases (step_waiting s hev).symm.trans h
    exact hinv
  · exact (afterEvent_of_step hev h).keeps_inv (hinv.withEvents es)

/-- Settles O9, from the three ways a command can end. -/
theorem commandsKeepBuflenAndHostSide : Obligations.CommandsKeepBuflenAndHostSide :=
  fun _ _ _ h => (ending_of_exec h).frame

/-- Settles O12, event by event; an issued word is judged by the frame of commands. -/
theorem onlyTheseEventsChangeEachPieceOfState : Obligations.OnlyTheseEventsChangeEachPieceOfState := by
  intro s t e es hev h
  cases afterEvent_of_step hev h with
  | reset => simp
  | attach bytes hclosed hlen => simp
  | detach => simp
  | issue cw _ ht =>
    obtain ⟨hbuflen, hsession, hevents, hreplies⟩ := (ending_of_issueWord ht).frame
    refine ⟨by simp [hbuflen, hsession], fun hbuf => ?_, by simp, by simp [hreplies], hevents⟩
    obtain ⟨i, hd, hi⟩ := exists_stores_of_issueWord_buf_ne ht hbuf
    exact .inr (.inr (.inr ⟨cw, i, rfl, hd, hi⟩))
  | observe => simp
  | readRegister r => simp

/-- Settles O22: a word always has an ending, and a step is refused only for a broken duty of `Attach`. -/
theorem engineIsNeverStuck : Obligations.EngineIsNeverStuck := by
  refine ⟨fun cw s => ?_, fun s => ?_, fun _ => nofun, fun s name => ?_⟩
  · obtain ⟨t, ht, hend⟩ := issueWord_ending cw s
    obtain ⟨_, _, hevents, _⟩ := hend.frame
    exact ⟨t, ht, hevents⟩
  · rcases step_next_or_refused s with ⟨hd, h⟩ | ⟨hd, h | h⟩
    · exact iff_of_true h hd
    · exact iff_of_false (by simp [h]) hd
    · exact iff_of_false (by simp [h]) hd
  · rcases step_next_or_refused s with ⟨_, t, h⟩ | ⟨_, h | h⟩ <;> simp [h]

/-- Settles O32: the two engines take the same branches and read the same bytes. -/
theorem outcomeIsAFunctionOfWordAndBuffer : Obligations.OutcomeIsAFunctionOfWordAndBuffer := by
  intro cw s₁ s₂ hbuflen hbytes
  obtain ⟨t₁, t₂, h₁, h₂, hout⟩ := SameBuffer.issueWord ⟨hbuflen, hbytes⟩ cw
  exact ⟨t₁, t₂, h₁, h₂, hout.res, hout.stat, hout.eoff, hout.buflen, hout.bytes⟩

/-- Settles O41, command by command: with `BUFLEN` = 0 only the empty range at 0 is in bounds. -/
theorem withoutABufferOnlyTheEmptySumSucceeds : Obligations.WithoutABufferOnlyTheEmptySumSucceeds := by
  intro i s hwf hs
  cases i with
  | csum start len => exact ⟨_, rfl, by simpa using csumBy_stat_of_no_buffer hs Config.alg start len⟩
  | csver pos start len => exact ⟨_, rfl, iff_of_false (csverBy_stat_of_no_buffer hs _ pos start len) (by simp)⟩
  | csput pos start len => exact ⟨_, rfl, iff_of_false (csputBy_stat_of_no_buffer hs _ pos start len) (by simp)⟩
  | unpk b sh w =>
    obtain ⟨t, ht, hstat⟩ := execUnpk_stat b ((legalField_iff sh w).mpr hwf) s
    exact ⟨t, ht, by simp [hstat]⟩
  | pack b sh w v =>
    obtain ⟨t, ht, hstat⟩ := execPack_stat b ((legalField_iff sh w).mpr hwf) v s
    exact ⟨t, ht, by simpa using hstat⟩
  | ldf off sh w =>
    obtain ⟨t, ht, hstat⟩ := execLdf_stat_of_no_buffer hs off sh w
    exact ⟨t, ht, iff_of_false hstat (by simp)⟩
  | stf off sh w v =>
    obtain ⟨t, ht, hstat⟩ := execStf_stat_of_no_buffer hs off sh w v
    exact ⟨t, ht, iff_of_false hstat (by simp)⟩

/-- Settles O20, by the equations of `step` and `issueWord`. -/
theorem stepRunsTheDecodedCommand : Obligations.StepRunsTheDecodedCommand := by
  intro s cw es hev
  have hstep : step s = issueWord cw { s with events := es } := step_event s (.issue cw) es hev
  exact ⟨hstep, fun i hd => hstep.trans (issueWord_of_decode_ok hd _),
    fun r hd => hstep.trans (issueWord_of_decode_error hd _)⟩

/-- Settles O21: the placed word is taken off again and the state is the one it was placed in. -/
theorem placedWordRunsNext : Obligations.PlacedWordRunsNext := by
  intro s nbits w i h
  calc step (s.withFetchWord nbits w)
      = issueWord (tableWord nbits w) s := step_event _ (.issue (tableWord nbits w)) s.events rfl
    _ = exec i s := issueWord_of_decode_ok (decode_of_decodeTableWord h) s

/-- Settles O27, by the equations of `step` and `runEvent`. -/
theorem resetEventClearsTheEngine : Obligations.ResetEventClearsTheEngine :=
  fun s es hev => (step_event s .reset es hev).trans (runEvent_reset _)

/-- Settles O29, field by field. -/
theorem resetLeavesTheStatedValues : Obligations.ResetLeavesTheStatedValues := ⟨rfl, rfl, rfl, rfl, rfl⟩

/-- Settles O30: the state after reset is an engine that has been reset. -/
theorem resetMeetsTheInvariant : Obligations.ResetMeetsTheInvariant := inv_resetEngine State.reset

end Sys2Proof.Machine

/-! SUPPORT. The family of the memory: which bytes a command writes and which it reads, where the operands of a whole
message stand among its regions, and encoding followed by verifying. The lemmas come first, the settled statements last. -/

namespace Sys2Proof.Machine

/-! ### Which bytes a storing command writes -/

/-- The one write of `CSPUT` is at `at` (`40_checksum.md` R79). -/
theorem csputBy_read_other (alg : Alg) (pos start len : Off) (s : State) {a : Nat} (ha : a ≠ pos.toNat) :
    (csputBy alg pos start len s).buf.read a = s.buf.read a := by
  rcases csputBy_cases alg pos start len s with ⟨_, h⟩ | ⟨_, h⟩ | ⟨_, _, h⟩
  · rw [h, raise_buf]
  · rw [h, done_buf, memWrite_buf, read_write_other _ _ _ _ ha]
  · rw [h, raise_buf]

/-- The one write of `STF` is at `off` (`41_bitfield.md` R99). -/
theorem execStf_read_other {off : Off} {sh : Shift} {w : Width} {v : Val} {s t : State}
    (h : execStf off sh w v s = .next t) {a : Nat} (ha : a ≠ off.toNat) : t.buf.read a = s.buf.read a := by
  rcases execStf_cases off sh w v s with ⟨_, hu⟩ | ⟨_, _, hu⟩ | ⟨_, _, _, hu⟩ | ⟨_, _, _, hu⟩ <;>
    cases hu.symm.trans h
  · rfl
  · rfl
  · rfl
  · exact read_write_other _ _ _ _ ha

/-! ### Which bytes a report depends on -/

/-- The same `RES`, `STAT` and `EOFF`, whatever the buffers are. -/
structure SameReport (t₁ t₂ : State) : Prop where
  res : t₁.res = t₂.res
  stat : t₁.stat = t₂.stat
  eoff : t₁.eoff = t₂.eoff

theorem sameReport_raise (s₁ s₂ : State) (c : ReportClass) (e : Off) : SameReport (s₁.raise c e) (s₂.raise c e) :=
  ⟨rfl, rfl, rfl⟩

theorem sameReport_done (s₁ s₂ : State) (r : Byte) : SameReport (s₁.done r) (s₂.done r) := ⟨rfl, rfl, rfl⟩

theorem sameReport_withDescriptor (sh : Shift) (w : Width) (s₁ s₂ : State) {t₁ t₂ : State}
    (h : SameReport t₁ t₂) : SameReport (withDescriptor sh w s₁ t₁) (withDescriptor sh w s₂ t₂) := by
  unfold withDescriptor
  split
  · exact h
  · exact sameReport_raise ..

section
variable {s₁ s₂ : State} (hlen : s₁.buflen = s₂.buflen)
include hlen

theorem sameReport_csumBy (alg : Alg) {start len : Off}
    (hq : s₁.rangeBytes start.toNat len.toNat = s₂.rangeBytes start.toNat len.toNat) :
    SameReport (csumBy alg start len s₁) (csumBy alg start len s₂) := by
  unfold csumBy
  rw [hlen, hq]
  split
  · exact sameReport_done ..
  · exact sameReport_raise ..

theorem sameReport_csputBy (alg : Alg) (pos : Off) {start len : Off}
    (hq : s₁.rangeBytes start.toNat len.toNat = s₂.rangeBytes start.toNat len.toNat) :
    SameReport (csputBy alg pos start len s₁) (csputBy alg pos start len s₂) := by
  unfold csputBy
  rw [hlen, hq]
  split
  · exact sameReport_raise ..
  · split
    · exact sameReport_done ..
    · exact sameReport_raise ..

theorem sameReport_csverBy (alg : Alg) {pos start len : Off}
    (hq : s₁.rangeBytes start.toNat len.toNat = s₂.rangeBytes start.toNat len.toNat)
    (hat : s₁.memRead pos.toNat = s₂.memRead pos.toNat) :
    SameReport (csverBy alg pos start len s₁) (csverBy alg pos start len s₂) := by
  unfold csverBy
  rw [hlen, hq, hat]
  split
  · exact sameReport_raise ..
  · split
    · split
      · exact sameReport_done ..
      · exact sameReport_raise ..
    · exact sameReport_raise ..

theorem sameReport_ldf {off : Off} (sh : Shift) (w : Width) (hoff : s₁.memRead off.toNat = s₂.memRead off.toNat) :
    ∃ t₁ t₂, exec (.ldf off sh w) s₁ = .next t₁ ∧ exec (.ldf off sh w) s₂ = .next t₂ ∧ SameReport t₁ t₂ := by
  refine ⟨_, _, rfl, rfl, sameReport_withDescriptor sh w s₁ s₂ ?_⟩
  rw [hlen, hoff]
  split
  · exact sameReport_done ..
  · exact sameReport_raise ..

theorem sameReport_stf {off : Off} (sh : Shift) (w : Width) (v : Val)
    (hoff : s₁.memRead off.toNat = s₂.memRead off.toNat) :
    ∃ t₁ t₂, exec (.stf off sh w v) s₁ = .next t₁ ∧ exec (.stf off sh w v) s₂ = .next t₂ ∧ SameReport t₁ t₂ := by
  refine ⟨_, _, rfl, rfl, sameReport_withDescriptor sh w s₁ s₂ ?_⟩
  rw [hlen, hoff]
  split
  · split
    · exact sameReport_done ..
    · exact sameReport_raise ..
  · exact sameReport_raise ..

end

/-! ### The regions of a whole message -/

/-- A region stands where the first list has it, or else behind the whole of that list. -/
theorem regionStart_append (rs ts : List (Region × Nat)) (r : Region) :
    regionStart (rs ++ ts) r = (regionStart rs r).or ((regionStart ts r).map (regionsLength rs + ·)) := by
  induction rs with
  | nil => simp [regionStart, regionsLength]
  | cons p rs ih =>
    by_cases hp : p.1 = r
    · simp [regionStart, hp]
    · simp [regionStart, hp, ih, Option.map_or, regionsLength, Function.comp_def, Nat.add_assoc]

theorem regionsLength_append (rs ts : List (Region × Nat)) :
    regionsLength (rs ++ ts) = regionsLength rs + regionsLength ts := by
  simp [regionsLength]

/-- The source blocks of a message in wire order (`20_memory.md` R39). -/
def sourceBlocks (n : Nat) : List (Region × Nat) := (List.range n).map fun k => (.sourceBlock k, Config.srcLen)

theorem sourceBlocks_succ (n : Nat) : sourceBlocks (n + 1) = sourceBlocks n ++ [(.sourceBlock n, 86)] := by
  simp [sourceBlocks, List.range_succ, Config.srcLen]

theorem regionsLength_sourceBlocks (n : Nat) : regionsLength (sourceBlocks n) = 86 * n := by
  induction n with
  | zero => rfl
  | succ n ih =>
    rw [sourceBlocks_succ, regionsLength_append, ih]
    simp [regionsLength]
    omega

theorem regionStart_sourceBlocks (n k : Nat) :
    regionStart (sourceBlocks n) (.sourceBlock k) = if k < n then some (86 * k) else none := by
  induction n with
  | zero => rfl
  | succ n ih =>
    rw [sourceBlocks_succ, regionStart_append, ih, regionsLength_sourceBlocks]
    rcases Nat.lt_trichotomy k n with h | rfl | h
    · simp [h, Nat.lt_succ_of_lt h]
    · simp [regionStart]
    · have hne : n ≠ k := by omega
      simp [regionStart, hne, Nat.not_lt_of_lt h, show ¬ k < n + 1 by omega]

theorem regionStart_sourceBlocks_trailer (n : Nat) : regionStart (sourceBlocks n) .trailer = none := by
  induction n with
  | zero => rfl
  | succ n ih => simp [sourceBlocks_succ, regionStart_append, ih, regionStart]

/-- The regions before the first source block (`20_memory.md` R39). -/
def headRegions (hdrLen commonLen : Nat) : List (Region × Nat) :=
  [(.header, hdrLen), (.toneMap, 19), (.checksum, 1), (.commonBlock, commonLen)]

theorem frameRegions_eq (hdrLen commonLen sourceCount : Nat) :
    frameRegions hdrLen commonLen sourceCount =
      headRegions hdrLen commonLen ++ (sourceBlocks sourceCount ++ [(.trailer, 1)]) :=
  List.append_assoc ..

theorem regionsLength_headRegions (hdrLen commonLen : Nat) :
    regionsLength (headRegions hdrLen commonLen) = frameStart hdrLen + commonLen := by
  simp [regionsLength, headRegions, frameStart, frameAt]
  omega

/-! ### Encoding, then verifying -/

/-- Right after `CSPUT` the stored byte is the checksum of a range that the write has left alone, so `CSVER` succeeds
(`40_checksum.md` R82). -/
theorem csverBy_csputBy_of_ok (alg : Alg) {pos start len : Off} {s : State}
    (hok : checksumOperandsOk s.buflen pos start len) :
    csverBy alg pos start len (csputBy alg pos start len s) = (csputBy alg pos start len s).done 1 := by
  rw [csputBy_of_ok alg pos start len s hok]
  refine (csverBy_of_ok alg pos start len _ ?_).trans ?_
  · exact hok
  · rw [rangeBytes_done, rangeBytes_memWrite_outside _ _ _ _ _ hok.1, done_buf, memWrite_buf, read_write_self, if_pos rfl]

theorem exec_csput_then_csver_of_ok {pos start len : Off} {s : State} (hok : checksumOperandsOk s.buflen pos start len) :
    ∃ t v, exec (.csput pos start len) s = .next t ∧ t.stat = 0 ∧
      (∀ a, a ≠ pos.toNat → t.buf.read a = s.buf.read a) ∧
      exec (.csver pos start len) t = .next v ∧ v.stat = 0 ∧ v.res = 1 := by
  refine ⟨_, _, rfl, ?_, fun a ha => csputBy_read_other _ _ _ _ _ ha,
    congrArg Host.Outcome.next (csverBy_csputBy_of_ok Config.alg hok), rfl, rfl⟩
  rw [csputBy_of_ok _ _ _ _ _ hok, done_stat]

/-- In a buffer as long as the message no operand of R40 is cut, since each is below `BUFLEN`. -/
theorem toNat_frame_operands {n : Off} {hdrLen commonLen sourceCount : Nat}
    (hn : n.toNat = frameLength hdrLen commonLen sourceCount) :
    (BitVec.ofNat 16 (frameAt hdrLen)).toNat = frameAt hdrLen ∧
      (BitVec.ofNat 16 (frameStart hdrLen)).toNat = frameStart hdrLen ∧
      (BitVec.ofNat 16 (frameBodyLen commonLen sourceCount)).toNat = frameBodyLen commonLen sourceCount := by
  have hlt := n.isLt
  simp only [BitVec.toNat_ofNat]
  unfold frameLength frameStart at *
  refine ⟨Nat.mod_eq_of_lt ?_, Nat.mod_eq_of_lt ?_, Nat.mod_eq_of_lt ?_⟩ <;> omega

theorem checksumOperandsOk_frame {n : Off} {hdrLen commonLen sourceCount : Nat}
    (hn : n.toNat = frameLength hdrLen commonLen sourceCount) :
    checksumOperandsOk n (BitVec.ofNat 16 (frameAt hdrLen)) (BitVec.ofNat 16 (frameStart hdrLen))
      (BitVec.ofNat 16 (frameBodyLen commonLen sourceCount)) := by
  obtain ⟨hat, hstart, hbody⟩ := toNat_frame_operands hn
  rw [checksumOperandsOk, hat, hstart, hbody, hn, frameLength, frameStart]
  omega

/-- From `BUFLEN` = 20 on the length operand of R41 does not wrap. -/
theorem checksumOperandsOk_unwrapped {n : Off} (hn : 20 ≤ n.toNat) : checksumOperandsOk n 19 20 (n - 20) := by
  have hsub : (n - 20).toNat = n.toNat - 20 := BitVec.toNat_sub_of_le hn
  rw [checksumOperandsOk, hsub]
  simp
  omega

/-! ### The statements of the family -/

/-- Settles O10: none of the five is a storing command. -/
theorem nonStoringCommandsKeepEveryByte : Obligations.NonStoringCommandsKeepEveryByte := by
  intro b off pos start len sh w v s t h a
  rcases h with h | h | h | h | h <;> rw [exec_keeps_buf h (by simp [StoringCommand])]

/-- Settles O11, from the one write of each storing command. -/
theorem storingCommandsKeepEveryOtherByte : Obligations.StoringCommandsKeepEveryOtherByte := by
  intro off pos start len sh w v s t
  refine ⟨fun h a ha => ?_, fun h a ha => execStf_read_other h ha⟩
  cases h
  exact csputBy_read_other _ _ _ _ _ ha

/-- Settles O33: with the named bytes equal, both engines take the same branches and end with the same report. -/
theorem commandsReadOnlyTheBytesTheyName : Obligations.CommandsReadOnlyTheBytesTheyName := by
  intro pos start len off sh w v s₁ s₂ hlen sameReport sameRange
  have hreport : ∀ {i : Instr}, (∃ t₁ t₂, exec i s₁ = .next t₁ ∧ exec i s₂ = .next t₂ ∧ SameReport t₁ t₂) →
      sameReport i := fun ⟨t₁, t₂, h₁, h₂, h⟩ => ⟨t₁, t₂, h₁, h₂, h.res, h.stat, h.eoff⟩
  have hbytes : sameRange → s₁.rangeBytes start.toNat len.toNat = s₂.rangeBytes start.toNat len.toNat :=
    rangeBytes_congr s₁ s₂ start.toNat len.toNat
  refine ⟨fun hr => ⟨hreport ?_, hreport ?_⟩, fun hr hat => hreport ?_, fun hoff => ⟨hreport ?_, hreport ?_⟩⟩
  · exact ⟨_, _, rfl, rfl, sameReport_csumBy hlen _ (hbytes hr)⟩
  · exact ⟨_, _, rfl, rfl, sameReport_csputBy hlen _ pos (hbytes hr)⟩
  · exact ⟨_, _, rfl, rfl, sameReport_csverBy hlen _ (hbytes hr) hat⟩
  · exact sameReport_ldf hlen sh w hoff
  · exact sameReport_stf hlen sh w v hoff

/-- Settles O54: the regions are the head, the source blocks and the trailer, and their lengths add up. -/
theorem frameOperandsFollowTheRegions : Obligations.FrameOperandsFollowTheRegions := by
  intro hdrLen commonLen sourceCount regions
  have hregions : regions = _ := frameRegions_eq hdrLen commonLen sourceCount
  rw [hregions]
  refine ⟨rfl, ?_, ?_, ?_, fun k hk => ?_, ?_, ?_⟩
  · simp [headRegions, regionStart]
  · simp [headRegions, regionStart, frameAt]
  · simp [headRegions, regionStart, frameStart, frameAt, Nat.add_assoc]
  · rw [regionStart_append, regionStart_append, regionStart_sourceBlocks, regionsLength_headRegions]
    simp [headRegions, regionStart, hk]
  · rw [regionStart_append, regionStart_append, regionStart_sourceBlocks_trailer, regionsLength_headRegions,
      regionsLength_sourceBlocks]
    simp [headRegions, regionStart, frameBodyLen, Nat.add_assoc]
  · rw [regionsLength_append, regionsLength_append, regionsLength_headRegions, regionsLength_sourceBlocks]
    simp [regionsLength, frameLength, frameBodyLen, Nat.add_assoc]

/-- Settles O55: in a buffer as long as the message the operands of R40 are legal. -/
theorem encodedFrameVerifies : Obligations.EncodedFrameVerifies := by
  intro hdrLen commonLen sourceCount s hn
  obtain ⟨hat, _, _⟩ := toNat_frame_operands hn
  have h := exec_csput_then_csver_of_ok (checksumOperandsOk_frame hn)
  rw [hat] at h
  exact h

/-- Settles O56: with at least 20 bytes the operands of R41 are legal. -/
theorem encodedUnwrappedBodyVerifies : Obligations.EncodedUnwrappedBodyVerifies :=
  fun _ hn => exec_csput_then_csver_of_ok (checksumOperandsOk_unwrapped hn)

end Sys2Proof.Machine

/-! SUPPORT. The family of the encoding: decoding and encoding are inverse to each other, the rows of the opcode table, the
illegal words, the assembler and the pseudo-instructions. The lemmas come first, the settled statements last. -/

namespace Sys2Proof.Machine

/-! ### Decoding and encoding -/

/-- A word is spelled by seven given fields exactly when these are its own. -/
theorem wordOfFields_eq_iff {op : BitVec 4} {s : Shift} {w : Width} {z : BitVec 5} {a b c : BitVec 16} {cw : CmdWord} :
    wordOfFields op s w z a b c = cw ↔
      op = fieldOP cw ∧ s = fieldS cw ∧ w = fieldW cw ∧ z = fieldZ cw ∧ a = fieldA cw ∧ b = fieldB cw ∧ c = fieldC cw := by
  refine ⟨fun h => ?_, fun ⟨hop, hs, hw, hz, ha, hb, hc⟩ => ?_⟩
  · subst h
    simp
  · subst hop hs hw hz ha hb hc
    exact wordOfFields_fields cw

theorem getLsbD_highMask : ∀ i < 16, (0xFF00 : BitVec 16).getLsbD i = decide (8 ≤ i) := by decide

/-- Format F keeps its operand byte in the low half of `A` and has zeros in the high half (R53). -/
theorem setWidth_eq_iff (a : BitVec 16) (b : Byte) : b.setWidth 16 = a ↔ 0 = a &&& 0xFF00 ∧ b = a.setWidth 8 := by
  constructor
  · rintro rfl
    exact ⟨(Laws.FixedBits.setWidth_and_high b).symm, by simp⟩
  · rintro ⟨hhigh, rfl⟩
    apply BitVec.eq_of_getLsbD_eq
    intro i hi
    have hbit : (a &&& 0xFF00).getLsbD i = false := by rw [← hhigh]; exact BitVec.getLsbD_zero
    rw [BitVec.getLsbD_and, getLsbD_highMask i hi] at hbit
    by_cases h8 : i < 8 <;> simp_all

@[simp] theorem extractLsb'_high_setWidth (b : Byte) : (b.setWidth 16).extractLsb' 8 8 = 0 := by
  apply BitVec.eq_of_getLsbD_eq
  intro i hi
  simp

/-- Decoding gives back what was encoded (R59). -/
theorem decode_encode {i : Instr} (h : i.wellFormed = true) : decode (encode i) = .ok i := by
  cases i with
  | csum start len => simp [decode, encode, decodeRange]
  | csver pos start len => simp [decode, encode, decodeRange]
  | csput pos start len => simp [decode, encode, decodeRange]
  | unpk b s w => simp_all [decode, encode, decodeOperandField, Instr.wellFormed, fieldALow_eq, fieldAHigh_eq]
  | pack b s w v => simp_all [decode, encode, decodeOperandField, Instr.wellFormed, fieldALow_eq, fieldAHigh_eq]
  | ldf off s w => simp_all [decode, encode, decodeBufferField, Instr.wellFormed]
  | stf off s w v => simp_all [decode, encode, decodeBufferField, Instr.wellFormed]

section
variable {cw : CmdWord} {i : Instr}

theorem encode_of_decodeRange (hop : fieldOP cw = 1 ∨ fieldOP cw = 2 ∨ fieldOP cw = 3) (hz : fieldZ cw = 0)
    (h : decodeRange cw = .ok i) : i.wellFormed = true ∧ encode i = cw := by
  unfold decodeRange at h
  split_ifs at h with hsw h1 ha h2 <;> cases h
  · exact ⟨rfl, wordOfFields_eq_iff.mpr (by simp_all)⟩
  · exact ⟨rfl, wordOfFields_eq_iff.mpr (by simp_all)⟩
  · exact ⟨rfl, wordOfFields_eq_iff.mpr (by simp_all)⟩

theorem encode_of_decodeOperandField (hop : fieldOP cw = 4 ∨ fieldOP cw = 5) (hz : fieldZ cw = 0)
    (hdesc : legalDescriptor (fieldS cw) (fieldW cw) = true) (hc : fieldC cw = 0)
    (h : decodeOperandField cw = .ok i) : i.wellFormed = true ∧ encode i = cw := by
  unfold decodeOperandField at h
  split_ifs at h with hhigh h4 hb <;> cases h
  · exact ⟨hdesc, wordOfFields_eq_iff.mpr (by simp_all [fieldA_of_high_zero])⟩
  · exact ⟨hdesc, wordOfFields_eq_iff.mpr (by simp_all [fieldA_of_high_zero])⟩

theorem encode_of_decodeBufferField (hop : fieldOP cw = 6 ∨ fieldOP cw = 7) (hz : fieldZ cw = 0)
    (hdesc : legalDescriptor (fieldS cw) (fieldW cw) = true) (hc : fieldC cw = 0)
    (h : decodeBufferField cw = .ok i) : i.wellFormed = true ∧ encode i = cw := by
  unfold decodeBufferField at h
  split_ifs at h with h6 hb <;> cases h
  · exact ⟨hdesc, wordOfFields_eq_iff.mpr (by simp_all)⟩
  · exact ⟨hdesc, wordOfFields_eq_iff.mpr (by simp_all)⟩

/-- Encoding gives back what was decoded, and only commands are decoded (R59). -/
theorem encode_of_decode (h : decode cw = .ok i) : i.wellFormed = true ∧ encode i = cw := by
  unfold decode at h
  split_ifs at h with hop hz hrange hdesc hc hoperand
  · exact encode_of_decodeRange (by bv_omega) (by simpa using hz) h
  · exact encode_of_decodeOperandField (by bv_omega) (by simpa using hz) (by simpa using hdesc) (by simpa using hc) h
  · exact encode_of_decodeBufferField (by bv_omega) (by simpa using hz) (by simpa using hdesc) (by simpa using hc) h

theorem decode_eq_ok_iff : decode cw = .ok i ↔ i.wellFormed = true ∧ encode i = cw :=
  ⟨encode_of_decode, fun ⟨hwf, hcw⟩ => hcw ▸ decode_encode hwf⟩

end

/-! ### The rows of the opcode table -/

/-- The fixed bits of a row of R57: a mask with all of `OP` and `Z`, a match whose other fields are zero. -/
theorem fixedBits_iff {cw mask pat : CmdWord} (op : BitVec 4) (ms : Shift) (mw : Width) (ma mb mc : BitVec 16)
    (hmask : mask = wordOfFields (.allOnes 4) ms mw (.allOnes 5) ma mb mc) (hpat : pat = wordOfFields op 0 0 0 0 0 0) :
    cw &&& mask = pat ↔ op = fieldOP cw ∧ 0 = fieldS cw &&& ms ∧ 0 = fieldW cw &&& mw ∧ 0 = fieldZ cw ∧
      0 = fieldA cw &&& ma ∧ 0 = fieldB cw &&& mb ∧ 0 = fieldC cw &&& mc := by
  have hand : cw &&& mask = wordOfFields (fieldOP cw &&& .allOnes 4) (fieldS cw &&& ms) (fieldW cw &&& mw)
      (fieldZ cw &&& .allOnes 5) (fieldA cw &&& ma) (fieldB cw &&& mb) (fieldC cw &&& mc) := by
    rw [hmask, ← and_wordOfFields, wordOfFields_fields]
  rw [hand, BitVec.and_allOnes, BitVec.and_allOnes, hpat, eq_comm, wordOfFields_eq_iff]
  simp

/-! ### Illegal words -/

theorem exists_error_ite {α β : Type} {c : Prop} [Decidable c] {x y : Except α β} :
    (∃ e, (if c then x else y) = .error e) ↔ (c ∧ ∃ e, x = .error e) ∨ (¬ c ∧ ∃ e, y = .error e) := by
  by_cases h : c <;> simp [h]

theorem toNat_extractLsb'_eq_div {n : Nat} (x : BitVec n) (start len : Nat) :
    (x.extractLsb' start len).toNat = x.toNat / 2 ^ start % 2 ^ len := by
  rw [BitVec.extractLsb'_toNat, Nat.shiftRight_eq_div_pow]

section
variable {cw : CmdWord}

theorem decodeRange_error_iff :
    (∃ e, decodeRange cw = .error e) ↔ fieldS cw ≠ 0 ∨ fieldW cw ≠ 0 ∨ (fieldOP cw = 1 ∧ fieldA cw ≠ 0) := by
  simp only [decodeRange, exists_error_ite, Except.error.injEq, exists_eq', reduceCtorEq, exists_false]
  tauto

theorem decodeOperandField_error_iff :
    (∃ e, decodeOperandField cw = .error e) ↔ fieldAHigh cw ≠ 0 ∨ (fieldOP cw = 4 ∧ fieldB cw ≠ 0) := by
  simp only [decodeOperandField, exists_error_ite, Except.error.injEq, exists_eq', reduceCtorEq, exists_false]
  tauto

theorem decodeBufferField_error_iff :
    (∃ e, decodeBufferField cw = .error e) ↔ fieldOP cw = 6 ∧ fieldB cw ≠ 0 := by
  simp only [decodeBufferField, exists_error_ite, Except.error.injEq, exists_eq', reduceCtorEq, exists_false]
  tauto

/-- The cases (a) to (h) of R58, of the seven fields as numbers. -/
def IllegalSpelling (op sh w z a b c : Nat) : Prop :=
  (op = 0 ∨ 8 ≤ op) ∨ z ≠ 0 ∨ ((op = 1 ∨ op = 2 ∨ op = 3) ∧ (sh ≠ 0 ∨ w ≠ 0)) ∨ (op = 1 ∧ a ≠ 0) ∨
  ((op = 4 ∨ op = 5 ∨ op = 6 ∨ op = 7) ∧ ¬ (1 ≤ w ∧ w ≤ 8 ∧ sh + w ≤ 8)) ∨
  ((op = 4 ∨ op = 5 ∨ op = 6 ∨ op = 7) ∧ c ≠ 0) ∨ ((op = 4 ∨ op = 6) ∧ b ≠ 0) ∨
  ((op = 4 ∨ op = 5) ∧ a / 2 ^ 8 ≠ 0)

theorem toNat_fieldAHigh : (fieldAHigh cw).toNat = (fieldA cw).toNat / 2 ^ 8 := by
  rw [fieldAHigh_eq, toNat_extractLsb'_eq_div]
  exact Nat.mod_eq_of_lt (by omega)

/-- Decoding rejects a word exactly in the cases (a) to (h) of R58. -/
theorem decode_error_iff : (∃ e, decode cw = .error e) ↔
    IllegalSpelling (fieldOP cw).toNat (fieldS cw).toNat (fieldW cw).toNat (fieldZ cw).toNat (fieldA cw).toNat
      (fieldB cw).toNat (fieldC cw).toNat := by
  simp only [decode, exists_error_ite, Except.error.injEq, exists_eq', decodeRange_error_iff,
    decodeOperandField_error_iff, decodeBufferField_error_iff, IllegalSpelling, ← toNat_fieldAHigh, ← Bool.not_eq_true,
    legalDescriptor_iff, ne_eq, ← BitVec.toNat_inj, BitVec.ofNat_eq_ofNat, BitVec.toNat_ofNat, Nat.zero_mod, and_true]
  by_cases hop : (fieldOP cw).toNat = 0 ∨ 8 ≤ (fieldOP cw).toNat
  · simp only [hop, true_or]
  · by_cases hrange : (fieldOP cw).toNat < 4
    · simp only [hop, hrange, not_true_eq_false, not_false_eq_true, true_and, false_and, false_or, or_false]
      omega
    · simp only [hop, hrange, not_false_eq_true, true_and, false_and, false_or]
      omega

/-- Case (i) of R58, of the fields as numbers: `at` in its own range. -/
def IllegalRange (op a b c : Nat) : Prop := (op = 2 ∨ op = 3) ∧ b ≤ a ∧ a < b + c

/-- Only `CSVER` and `CSPUT` can be illegal by value, and their words show it. -/
theorem illegalByValue_iff_of_decode {i : Instr} (h : decode cw = .ok i) : IllegalByValue i ↔
    IllegalRange (fieldOP cw).toNat (fieldA cw).toNat (fieldB cw).toNat (fieldC cw).toNat := by
  obtain ⟨_, rfl⟩ := encode_of_decode h
  cases i <;> simp [encode, IllegalByValue, IllegalRange]

end

theorem exec_of_illegalByValue {i : Instr} (h : IllegalByValue i) (s : State) :
    exec i s = .next (s.raise .illegalCommand 0) := by
  cases i with
  | csver pos start len =>
    rcases csverBy_cases Config.alg pos start len s with ⟨_, hs⟩ | ⟨hok, _⟩ | ⟨hok, _⟩ | ⟨hout, _⟩
    · exact congrArg _ hs
    · exact absurd h hok.1
    · exact absurd h hok.1
    · exact absurd h hout
  | csput pos start len =>
    rcases csputBy_cases Config.alg pos start len s with ⟨_, hs⟩ | ⟨hok, _⟩ | ⟨hout, _⟩
    · exact congrArg _ hs
    · exact absurd h hok.1
    · exact absurd h hout
  | csum start len => exact h.elim
  | unpk b sh w => exact h.elim
  | pack b sh w v => exact h.elim
  | ldf off sh w => exact h.elim
  | stf off sh w v => exact h.elim

theorem stat_eq_seven_iff (c : ReportClass) : c.stat = 7 ↔ c = .illegalCommand := by
  cases c <;> decide

theorem raise_stat_ne_seven (s : State) {c : ReportClass} (hc : c ≠ .illegalCommand) (e : Off) :
    (s.raise c e).stat ≠ 7 :=
  fun h => hc ((stat_eq_seven_iff c).mp h)

theorem done_stat_ne_seven (s : State) (r : Byte) : (s.done r).stat ≠ 7 := by
  rw [done_stat]
  decide

/-- A well-formed command that is not illegal by value ends otherwise than as `IllegalCommand` (R58). -/
theorem exec_stat_ne_seven {i : Instr} (hwf : i.wellFormed = true) (hv : ¬ IllegalByValue i) (s : State) :
    ∃ t, exec i s = .next t ∧ t.stat ≠ 7 := by
  cases i with
  | csum start len =>
    refine ⟨_, rfl, ?_⟩
    rcases csumBy_cases Config.alg start len s with ⟨_, h⟩ | ⟨_, h⟩
    · exact h ▸ done_stat_ne_seven s _
    · exact h ▸ raise_stat_ne_seven s (by decide) _
  | csver pos start len =>
    refine ⟨_, rfl, ?_⟩
    rcases csverBy_cases Config.alg pos start len s with ⟨hin, _⟩ | ⟨_, _, h⟩ | ⟨_, _, h⟩ | ⟨_, _, h⟩
    · exact absurd hin hv
    · exact h ▸ done_stat_ne_seven s _
    · exact h ▸ raise_stat_ne_seven s (by decide) _
    · exact h ▸ raise_stat_ne_seven s (by decide) _
  | csput pos start len =>
    refine ⟨_, rfl, ?_⟩
    rcases csputBy_cases Config.alg pos start len s with ⟨hin, _⟩ | ⟨_, h⟩ | ⟨_, _, h⟩
    · exact absurd hin hv
    · exact h ▸ done_stat_ne_seven _ _
    · exact h ▸ raise_stat_ne_seven s (by decide) _
  | unpk b sh w =>
    rcases execUnpk_cases b sh w s with ⟨hbad, _⟩ | ⟨_, h⟩
    · exact absurd ((legalField_iff sh w).mpr hwf) hbad
    · exact ⟨_, h, done_stat_ne_seven s _⟩
  | pack b sh w v =>
    rcases execPack_cases b sh w v s with ⟨hbad, _⟩ | ⟨_, _, h⟩ | ⟨_, _, h⟩
    · exact absurd ((legalField_iff sh w).mpr hwf) hbad
    · exact ⟨_, h, raise_stat_ne_seven s (by decide) _⟩
    · exact ⟨_, h, done_stat_ne_seven s _⟩
  | ldf off sh w =>
    rcases execLdf_cases off sh w s with ⟨hbad, _⟩ | ⟨_, _, h⟩ | ⟨_, _, h⟩
    · exact absurd ((legalField_iff sh w).mpr hwf) hbad
    · exact ⟨_, h, raise_stat_ne_seven s (by decide) _⟩
    · exact ⟨_, h, done_stat_ne_seven s _⟩
  | stf off sh w v =>
    rcases execStf_cases off sh w v s with ⟨hbad, _⟩ | ⟨_, _, h⟩ | ⟨_, _, _, h⟩ | ⟨_, _, _, h⟩
    · exact absurd ((legalField_iff sh w).mpr hwf) hbad
    · exact ⟨_, h, raise_stat_ne_seven s (by decide) _⟩
    · exact ⟨_, h, raise_stat_ne_seven s (by decide) _⟩
    · exact ⟨_, h, done_stat_ne_seven _ _⟩

/-! ### The assembler -/

theorem wellFormed_of_assembleLine {line : List Char} {i : Instr} (h : assembleLine line = some i) :
    i.wellFormed = true := by
  unfold assembleLine at h
  simp only at h
  split at h
  · cases h
  · split at h
    · cases h
    · split at h
      · cases h; assumption
      · cases h

/-! ### Whole bytes and 7-bit bytes -/

theorem unpack_whole (b : Byte) : unpack b 0 8 = b := by
  rw [unpack, show lowMask 8 = .allOnes 8 by decide, BitVec.and_allOnes]
  exact BitVec.ushiftRight_zero b

theorem unpack_low7 (b : Byte) : unpack b 0 7 = b &&& 0x7F := by
  rw [unpack, show lowMask 7 = 0x7F by decide]
  exact congrArg (· &&& _) (BitVec.ushiftRight_zero b)

theorem pack_whole (b : Byte) (v : Val) : pack b 0 8 v = v.setWidth 8 := by
  rw [pack, show ~~~ fmask 0 8 = 0 by decide]
  simp

theorem pack_low7 (b : Byte) (v : Val) : pack b 0 7 v = (b &&& 0x80) ||| v.setWidth 8 := by
  rw [pack, show ~~~ fmask 0 7 = 0x80 by decide]
  simp

/-! ### Fields of a buffer byte -/

section
variable {off : Off} {sh : Shift} {w : Width} {s : State}

theorem exec_ldf_of_inBounds (hl : LegalField sh w) (hin : off.toNat < s.buflen.toNat) :
    exec (.ldf off sh w) s = .next (s.done (unpack (s.buf.read off.toNat) sh w)) := by
  rcases execLdf_cases off sh w s with ⟨hbad, _⟩ | ⟨_, hout, _⟩ | ⟨_, _, h⟩
  · exact absurd hl hbad
  · exact absurd hin (Nat.not_lt_of_le hout)
  · exact h

theorem exec_stf_of_tooWide (hl : LegalField sh w) {v : Val} (hv : 2 ^ w.toNat ≤ v.toNat) :
    exec (.stf off sh w v) s = .next (s.raise .fieldOutOfRange off) := by
  rcases execStf_cases off sh w v s with ⟨hbad, _⟩ | ⟨_, _, h⟩ | ⟨_, hfits, _⟩ | ⟨_, hfits, _⟩
  · exact absurd hl hbad
  · exact h
  · exact absurd hfits (Nat.not_lt_of_le hv)
  · exact absurd hfits (Nat.not_lt_of_le hv)

theorem exec_stf_of_fits (hl : LegalField sh w) {v : Val} (hv : v.toNat < 2 ^ w.toNat)
    (hin : off.toNat < s.buflen.toNat) :
    exec (.stf off sh w v) s = .next ((s.memWrite off.toNat (pack (s.buf.read off.toNat) sh w v)).done
      (pack (s.buf.read off.toNat) sh w v)) := by
  rcases execStf_cases off sh w v s with ⟨hbad, _⟩ | ⟨_, hwide, _⟩ | ⟨_, _, hout, _⟩ | ⟨_, _, _, h⟩
  · exact absurd hl hbad
  · exact absurd hv (Nat.not_lt_of_le hwide)
  · exact absurd hin (Nat.not_lt_of_le hout)
  · exact h

/-- `STF` of a value that fits, with the new memory described by its reads. -/
theorem exists_memory_of_exec_stf (hl : LegalField sh w) {v : Val} (hv : v.toNat < 2 ^ w.toNat)
    (hin : off.toNat < s.buflen.toNat) : ∃ m : Memory,
      exec (.stf off sh w v) s = .next { s with buf := m, res := m.read off.toNat, stat := 0, eoff := 0 } ∧
      m.read off.toNat = pack (s.buf.read off.toNat) sh w v ∧ ∀ a, a ≠ off.toNat → m.read a = s.buf.read a := by
  refine ⟨s.buf.write off.toNat (pack (s.buf.read off.toNat) sh w v), ?_, read_write_self _ _ _,
    fun a ha => read_write_other _ _ _ _ ha⟩
  rw [exec_stf_of_fits hl hv hin, read_write_self]
  rfl

end

/-! ### The statements of the family -/

/-- Settles O13, from the two round trips; the injectivity is the second one twice. -/
theorem decodeAndEncodeAgree : Obligations.DecodeAndEncodeAgree :=
  ⟨fun _ => decode_encode, fun _ _ => encode_of_decode,
    fun _ _ _ h h' => (encode_of_decode h).2.symm.trans (encode_of_decode h').2⟩

/-- Settles O14: decoding to a command fixes all seven fields of the word, and a row's mask and match fix those that are
no operand. -/
theorem decodeFollowsTheOpcodeTable : Obligations.DecodeFollowsTheOpcodeTable := by
  intro cw b x y z sh w
  simp only [decode_eq_ok_iff, encode, wordOfFields_eq_iff, Instr.wellFormed, ← legalField_iff, setWidth_eq_iff,
    ← fieldALow_eq]
  rw [fixedBits_iff 1 (.allOnes _) (.allOnes _) (.allOnes _) 0 0 (by decide) (by decide),
    fixedBits_iff 2 (.allOnes _) (.allOnes _) 0 0 0 (by decide) (by decide),
    fixedBits_iff 3 (.allOnes _) (.allOnes _) 0 0 0 (by decide) (by decide),
    fixedBits_iff 4 0 0 0xFF00 (.allOnes _) (.allOnes _) (by decide) (by decide),
    fixedBits_iff 5 0 0 0xFF00 0 (.allOnes _) (by decide) (by decide),
    fixedBits_iff 6 0 0 0 (.allOnes _) (.allOnes _) (by decide) (by decide),
    fixedBits_iff 7 0 0 0 0 (.allOnes _) (by decide) (by decide)]
  simp only [BitVec.and_allOnes, Laws.FixedBits.and_none, true_and]
  refine ⟨?_, ?_, ?_, ?_, ?_, ?_, ?_⟩ <;> tauto

/-- Settles O15: the fields of the word are the numbers of the statement, so (a) to (h) are the rejections and (i) is
illegal by value. -/
theorem illegalWordsAreExactlyThoseListed : Obligations.IllegalWordsAreExactlyThoseListed := by
  intro cw s op sh w z a b c spelling byValue
  have hop : (fieldOP cw).toNat = op := toNat_extractLsb'_eq_div cw 60 4
  have hsh : (fieldS cw).toNat = sh := toNat_extractLsb'_eq_div cw 57 3
  have hw : (fieldW cw).toNat = w := toNat_extractLsb'_eq_div cw 53 4
  have hz : (fieldZ cw).toNat = z := toNat_extractLsb'_eq_div cw 48 5
  have ha : (fieldA cw).toNat = a := toNat_extractLsb'_eq_div cw 32 16
  have hb : (fieldB cw).toNat = b := toNat_extractLsb'_eq_div cw 16 16
  have hc : (fieldC cw).toNat = c := (toNat_extractLsb'_eq_div cw 0 16).trans (by rw [pow_zero, Nat.div_one])
  have hspelling : (∃ e, decode cw = .error e) ↔ spelling := by
    rw [decode_error_iff, hop, hsh, hw, hz, ha, hb, hc]
    exact Iff.rfl
  have hvalue {i : Instr} (hd : decode cw = .ok i) : IllegalByValue i ↔ byValue := by
    rw [illegalByValue_iff_of_decode hd, hop, ha, hb, hc]
    exact Iff.rfl
  cases hd : decode cw with
  | error r =>
    have hill : spelling := hspelling.mp ⟨r, hd⟩
    exact ⟨iff_of_true ⟨r, rfl⟩ hill, fun _ => issueWord_of_decode_error hd s, fun h => absurd hill h.1⟩
  | ok i =>
    have hleg : ¬ spelling := fun h => by simpa [hd] using hspelling.mpr h
    rw [issueWord_of_decode_ok hd]
    exact ⟨iff_of_false nofun hleg, fun h => exec_of_illegalByValue ((hvalue hd).mpr (h.resolve_left hleg)) s,
      fun h => exec_stat_ne_seven (encode_of_decode hd).1 (mt (hvalue hd).mp h.2) s⟩

/-- Settles O18, from the last test of the assembler and the round trip. -/
theorem assembledLinesAreCommands : Obligations.AssembledLinesAreCommands := by
  intro line cw h
  obtain ⟨i, hi, rfl⟩ := Option.map_eq_some_iff.mp h
  have hwf := wellFormed_of_assembleLine hi
  exact ⟨i, hi, hwf, decode_encode hwf⟩

/-- Settles O19, from `LDF` and `STF` with the descriptors (0, 8) and (0, 7). -/
theorem pseudoInstructionsMoveWholeBytes : Obligations.PseudoInstructionsMoveWholeBytes := by
  intro off v s hin
  have h8 : LegalField 0 8 := (legalField_iff 0 8).mpr rfl
  have h7 : LegalField 0 7 := (legalField_iff 0 7).mpr rfl
  refine ⟨?_, ?_, exec_stf_of_tooWide h8, exec_stf_of_tooWide h7, fun hv => ?_, fun hv => ?_⟩
  · rw [pseudoLdb, exec_ldf_of_inBounds h8 hin, unpack_whole]
    rfl
  · rw [pseudoLd7, exec_ldf_of_inBounds h7 hin, unpack_low7]
    rfl
  · obtain ⟨m, hexec, hself, hother⟩ := exists_memory_of_exec_stf h8 hv hin
    rw [pack_whole] at hself
    exact ⟨m, hself ▸ hexec, hself, hother⟩
  · obtain ⟨m, hexec, hself, hother⟩ := exists_memory_of_exec_stf h7 hv hin
    exact ⟨m, hexec, hself.trans (pack_low7 _ v), hother⟩

/-- Settles O8: the descriptor is the first test of all four commands. -/
theorem illegalDescriptorTermsAreReported : Obligations.IllegalDescriptorTermsAreReported := by
  intro b off sh w v s hbad
  have h : legalDescriptor sh w = false := by simpa [legalField_iff] using hbad
  exact ⟨congrArg _ (withDescriptor_illegal sh w s _ h), congrArg _ (withDescriptor_illegal sh w s _ h),
    congrArg _ (withDescriptor_illegal sh w s _ h), congrArg _ (withDescriptor_illegal sh w s _ h)⟩

/-- Settles O16, by running the decoder on the seven words. -/
theorem writtenOutWordsDecode : Obligations.WrittenOutWordsDecode := by
  unfold Obligations.WrittenOutWordsDecode
  decide

/-- Settles O17, by running the assembler on the ten lines. -/
theorem assemblerExamples : Obligations.AssemblerExamples := by
  unfold Obligations.AssemblerExamples
  decide

end Sys2Proof.Machine

/-! SUPPORT. The family of the checksum: what each of the three commands does once its operands are known to pass or to fail,
the words that spell them, and the three candidate algorithms. The lemmas come first, the settled statements last. -/

namespace Sys2Proof.Machine

/-! ### The words of the range commands -/

/-- The opcode of a command (`30_encoding.md` R57). -/
def opcode : Instr → BitVec 4
  | .csum _ _ => 1
  | .csver _ _ _ => 2
  | .csput _ _ _ => 3
  | .unpk _ _ _ => 4
  | .pack _ _ _ _ => 5
  | .ldf _ _ _ => 6
  | .stf _ _ _ _ => 7

@[simp] theorem fieldOP_encode (i : Instr) : fieldOP (encode i) = opcode i := by
  cases i <;> exact fieldOP_wordOfFields _ _ _ _ _ _ _

/-- A word that is no command of its own opcode is no command at all (R58, R59). -/
theorem issueWord_of_misspelt {cw : CmdWord} {op : BitVec 4} (hop : fieldOP cw = op)
    (h : ∀ i : Instr, opcode i = op → encode i ≠ cw) (s : State) :
    issueWord cw s = .next (s.raise .illegalCommand 0) := by
  cases hd : decode cw with
  | error r => exact issueWord_of_decode_error hd s
  | ok i =>
    have hcw : encode i = cw := (encode_of_decode hd).2
    exact absurd hcw (h i (by rw [← fieldOP_encode, hcw, hop]))

/-- `CSUM` spelled with `S`, `W`, `Z` and `A` as one zero field (R52). -/
theorem encode_csum (start len : Off) : encode (.csum start len) = 0x1#4 ++ 0#28 ++ start ++ len :=
  congrArg (fun head : BitVec 32 => head ++ start ++ len)
    (show 0x1#4 ++ 0#3 ++ 0#4 ++ 0#5 ++ 0#16 = 0x1#4 ++ 0#28 by decide)

/-- `CSVER` spelled with `S`, `W` and `Z` as one zero field (R52). -/
theorem encode_csver (pos start len : Off) : encode (.csver pos start len) = 0x2#4 ++ 0#12 ++ pos ++ start ++ len :=
  congrArg (fun head : BitVec 16 => head ++ pos ++ start ++ len)
    (show 0x2#4 ++ 0#3 ++ 0#4 ++ 0#5 = 0x2#4 ++ 0#12 by decide)

/-- `CSPUT` spelled likewise (R52). -/
theorem encode_csput (pos start len : Off) : encode (.csput pos start len) = 0x3#4 ++ 0#12 ++ pos ++ start ++ len :=
  congrArg (fun head : BitVec 16 => head ++ pos ++ start ++ len)
    (show 0x3#4 ++ 0#3 ++ 0#4 ++ 0#5 = 0x3#4 ++ 0#12 by decide)

/-! ### Each command with its operands known to pass or to fail -/

/-- A buffer that holds `q` on a range has the checksum of `q` there (`40_checksum.md` R72). -/
theorem compute_rangeBytes_of_holdsAt (alg : Alg) {s : State} {start len : Nat} {q : List Byte} (hlen : q.length = len)
    (hq : s.HoldsAt start q) : compute alg (s.rangeBytes start len) = alg.fin (q.foldl alg.step alg.init) := by
  rw [← hlen, rangeBytes_eq_of_holdsAt s start q hq]
  rfl

section
variable (alg : Alg) {pos start len : Off} {s : State}

theorem csumBy_of_inBounds (h : start.toNat + len.toNat ≤ s.buflen.toNat) :
    csumBy alg start len s = s.done (compute alg (s.rangeBytes start.toNat len.toNat)) :=
  if_pos ((rangeInBounds_iff _ _ _).mpr h)

theorem csumBy_of_truncated (h : s.buflen.toNat < start.toNat + len.toNat) :
    csumBy alg start len s = s.raise .truncatedInput s.buflen :=
  if_neg fun hin => Nat.not_lt_of_le ((rangeInBounds_iff _ _ _).mp hin) h

/-- Operands out of bounds do not pass the checks. -/
theorem not_checksumOperandsOk_of_truncated {n : Off} (h : n.toNat ≤ pos.toNat ∨ n.toNat < start.toNat + len.toNat) :
    ¬ checksumOperandsOk n pos start len := by
  unfold checksumOperandsOk
  omega

theorem csverBy_of_truncated (hout : ¬ (start.toNat ≤ pos.toNat ∧ pos.toNat < start.toNat + len.toNat))
    (h : s.buflen.toNat ≤ pos.toNat ∨ s.buflen.toNat < start.toNat + len.toNat) :
    csverBy alg pos start len s = s.raise .truncatedInput s.buflen := by
  have hbad := not_checksumOperandsOk_of_truncated h
  rcases csverBy_cases alg pos start len s with ⟨hin, _⟩ | ⟨hok, _⟩ | ⟨hok, _⟩ | ⟨_, _, hs⟩
  · exact absurd hin hout
  · exact absurd hok hbad
  · exact absurd hok hbad
  · exact hs

theorem csputBy_of_inside (hin : start.toNat ≤ pos.toNat ∧ pos.toNat < start.toNat + len.toNat) :
    csputBy alg pos start len s = s.raise .illegalCommand 0 :=
  if_pos ((insideRange_iff _ _ _).mpr hin)

theorem csputBy_of_truncated (hout : ¬ (start.toNat ≤ pos.toNat ∧ pos.toNat < start.toNat + len.toNat))
    (h : s.buflen.toNat ≤ pos.toNat ∨ s.buflen.toNat < start.toNat + len.toNat) :
    csputBy alg pos start len s = s.raise .truncatedInput s.buflen := by
  rcases csputBy_cases alg pos start len s with ⟨hin, _⟩ | ⟨hok, _⟩ | ⟨_, _, hs⟩
  · exact absurd hin hout
  · exact absurd hok (not_checksumOperandsOk_of_truncated h)
  · exact hs

/-- `CSVER` once its operands pass and the stored byte is the checksum. -/
theorem csverBy_of_match (hok : checksumOperandsOk s.buflen pos start len)
    (h : compute alg (s.rangeBytes start.toNat len.toNat) = s.buf.read pos.toNat) :
    csverBy alg pos start len s = s.done 1 := by
  rw [csverBy_of_ok alg pos start len s hok, if_pos h]

/-- `CSVER` once its operands pass and the stored byte is another one. -/
theorem csverBy_of_mismatch (hok : checksumOperandsOk s.buflen pos start len)
    (h : compute alg (s.rangeBytes start.toNat len.toNat) ≠ s.buf.read pos.toNat) :
    csverBy alg pos start len s = s.raise .checksumMismatch pos := by
  rw [csverBy_of_ok alg pos start len s hok, if_neg h]

/-! ### The state after `CSPUT` -/

theorem csputBy_buflen : (csputBy alg pos start len s).buflen = s.buflen := by
  rcases csputBy_cases alg pos start len s with ⟨_, h⟩ | ⟨_, h⟩ | ⟨_, _, h⟩ <;> simp [h]

/-- `CSPUT` leaves the range as it was, so the byte it stored is the checksum of the range it leaves (R79). -/
theorem compute_rangeBytes_csputBy (hok : checksumOperandsOk s.buflen pos start len) :
    compute alg ((csputBy alg pos start len s).rangeBytes start.toNat len.toNat) =
      (csputBy alg pos start len s).buf.read pos.toNat := by
  rw [csputBy_of_ok alg pos start len s hok, rangeBytes_done, rangeBytes_memWrite_outside _ _ _ _ _ hok.1, done_buf,
    memWrite_buf, read_write_self]

/-- Storing and reporting a second byte at an offset leaves nothing of the first. -/
theorem memWrite_done_memWrite_done (s : State) (o : Nat) (b c : Byte) :
    (((s.memWrite o b).done b).memWrite o c).done c = (s.memWrite o c).done c := by
  simp only [State.memWrite, State.done, State.respond, write_write]

/-- A second `CSPUT` meets the same operands and the same range, so it ends as the first did (R79). -/
theorem csputBy_csputBy : csputBy alg pos start len (csputBy alg pos start len s) = csputBy alg pos start len s := by
  have hlen : (csputBy alg pos start len s).buflen = s.buflen := csputBy_buflen alg
  rcases csputBy_cases alg pos start len s with ⟨hin, h⟩ | ⟨hok, h⟩ | ⟨hout, htrunc, h⟩
  · rw [csputBy_of_inside alg hin, h]
    rfl
  · rw [csputBy_of_ok alg pos start len (csputBy alg pos start len s) (hlen ▸ hok), h, rangeBytes_done,
      rangeBytes_memWrite_outside _ _ _ _ _ hok.1, memWrite_done_memWrite_done]
  · rw [csputBy_of_truncated alg hout (hlen ▸ htrunc), h]
    rfl

/-- A range byte changed in bits 6:0 makes a checksum that was right a wrong one, if `ALG` is `Sensitive7` (R81). -/
theorem csverBy_memWrite_of_sensitive7 (halg : Sensitive7 alg) (hok : checksumOperandsOk s.buflen pos start len)
    (hsum : compute alg (s.rangeBytes start.toNat len.toNat) = s.buf.read pos.toNat) {i : Nat} (hi : i < len.toNat)
    {c : Byte} (hc : c.setWidth 7 ≠ (s.buf.read (start.toNat + i)).setWidth 7) :
    csverBy alg pos start len (s.memWrite (start.toNat + i) c) =
      (s.memWrite (start.toNat + i) c).raise .checksumMismatch pos := by
  have hpos : pos.toNat ≠ start.toNat + i := fun h => hok.1 (by omega)
  refine csverBy_of_mismatch alg (s := s.memWrite _ c) hok ?_
  rw [rangeBytes_memWrite_inside _ _ _ _ _ hi, memWrite_buf, read_write_other _ _ _ _ hpos, ← hsum]
  refine halg _ i (by simpa using hi) c (length_rangeBytes_le_maxBuf s start.toNat len) ?_
  rw [getElem_rangeBytes]
  exact hc

end

/-! ### The candidate algorithms -/

/-- What the three candidates have in common: the result is below 128, a step reads bits 6:0 of its byte and nothing else of
it, and no two accumulators or low seven bits are confused on the way to the result. -/
structure FaithfulToLowBits (alg : Alg) : Prop where
  fin_le : ∀ acc, (alg.fin acc).toNat ≤ 0x7F
  fin_injective : Function.Injective alg.fin
  step_injective : ∀ b, Function.Injective fun acc => alg.step acc b
  step_eq_iff : ∀ acc b c, alg.step acc c = alg.step acc b ↔ c.setWidth 7 = b.setWidth 7

theorem foldl_injective {α β : Type} {f : α → β → α} (hf : ∀ b, Function.Injective fun a => f a b) (l : List β) :
    Function.Injective fun a => l.foldl f a := by
  induction l with
  | nil => exact fun _ _ h => h
  | cons b l ih => exact ih.comp (hf b)

section
variable {alg : Alg} (halg : FaithfulToLowBits alg)
include halg

/-- The accumulators before and after the replaced byte decide: the bytes before it lead to the same accumulator, and the
bytes after it keep different accumulators apart. -/
theorem FaithfulToLowBits.compute_set_eq_iff {q : List Byte} {i : Nat} (h : i < q.length) (c : Byte) :
    compute alg (q.set i c) = compute alg q ↔ c.setWidth 7 = (q[i]).setWidth 7 := by
  have hfold (b : Byte) : compute alg (q.take i ++ b :: q.drop (i + 1)) =
      alg.fin ((q.drop (i + 1)).foldl alg.step (alg.step ((q.take i).foldl alg.step alg.init) b)) := by
    rw [compute, List.foldl_append, List.foldl_cons]
  have hq : compute alg q = compute alg (q.take i ++ q[i] :: q.drop (i + 1)) := by simp
  rw [hq, List.set_eq_take_append_cons_drop, if_pos h, hfold, hfold, halg.fin_injective.eq_iff,
    (foldl_injective halg.step_injective _).eq_iff, halg.step_eq_iff]

theorem FaithfulToLowBits.compute_le (q : List Byte) : (compute alg q).toNat ≤ 0x7F := halg.fin_le _

theorem FaithfulToLowBits.midiSafe : MidiSafe alg := fun q _ => halg.compute_le q

theorem FaithfulToLowBits.sensitive7 : Sensitive7 alg :=
  fun _ _ h c _ hne he => hne ((halg.compute_set_eq_iff h c).mp he)

end

theorem sum7Step_eq_add (acc : BitVec 7) (b : Byte) : sum7Step acc b = acc + b.setWidth 7 := by
  apply BitVec.eq_of_toNat_eq
  rw [toNat_sum7Step, BitVec.toNat_add, BitVec.toNat_setWidth]

theorem sum7Step_injective (b : Byte) : Function.Injective fun acc => sum7Step acc b := by
  intro x y h
  simpa [sum7Step_eq_add] using h

theorem sum7Step_eq_iff (acc : BitVec 7) (b c : Byte) :
    sum7Step acc c = sum7Step acc b ↔ c.setWidth 7 = b.setWidth 7 := by
  rw [sum7Step_eq_add, sum7Step_eq_add, BitVec.add_right_inj]

theorem negate7Fin_injective : Function.Injective negate7Fin := by
  intro x y h
  have h := congrArg BitVec.toNat h
  rw [toNat_negate7Fin, toNat_negate7Fin] at h
  bv_omega

theorem extend7Fin_injective : Function.Injective extend7Fin := by
  intro x y h
  have h := congrArg BitVec.toNat h
  rw [toNat_extend7Fin, toNat_extend7Fin] at h
  exact BitVec.eq_of_toNat_eq h

theorem extend7Fin_le (acc : BitVec 7) : (extend7Fin acc).toNat ≤ 0x7F := by
  rw [toNat_extend7Fin]
  exact Nat.le_of_lt_succ acc.isLt

theorem negate7Fin_le (acc : BitVec 7) : (negate7Fin acc).toNat ≤ 0x7F := by
  rw [toNat_negate7Fin]
  omega

theorem faithful_sum7TwosComplement : FaithfulToLowBits algSum7TwosComplement where
  fin_le := negate7Fin_le
  fin_injective := negate7Fin_injective
  step_injective := sum7Step_injective
  step_eq_iff := sum7Step_eq_iff

theorem faithful_sum7A5 : FaithfulToLowBits algSum7A5 where
  fin_le := extend7Fin_le
  fin_injective := extend7Fin_injective
  step_injective := sum7Step_injective
  step_eq_iff := sum7Step_eq_iff

theorem faithful_xor7 : FaithfulToLowBits algXor7 where
  fin_le := extend7Fin_le
  fin_injective := extend7Fin_injective
  step_injective := fun _ _ _ h => (BitVec.xor_left_inj _).mp h
  step_eq_iff := fun _ _ _ => BitVec.xor_right_inj _

theorem extend7Fin_xor (x y : BitVec 7) : extend7Fin (x ^^^ y) = extend7Fin x ^^^ extend7Fin y := BitVec.setWidth_xor

/-- One byte under the exclusive-or candidate: its bits 6:0 (R75). -/
theorem extend7Fin_setWidth (b : Byte) : extend7Fin (b.setWidth 7) = b &&& 0x7F := by
  apply BitVec.eq_of_getLsbD_eq
  intro i hi
  have hmask : ∀ j, j < 8 → (0x7F : Byte).getLsbD j = decide (j < 7) := by decide
  rw [extend7Fin, BitVec.getLsbD_setWidth, BitVec.getLsbD_setWidth, BitVec.getLsbD_and, hmask i hi]
  simp [hi, Bool.and_comm]

/-- Taking each byte modulo 128 first does not change the sum modulo 128. -/
theorem sum_low7_mod (q : List Byte) :
    (q.map fun b => b.toNat % 128).sum % 128 = (q.map BitVec.toNat).sum % 128 := by
  rw [List.sum_nat_mod (q.map BitVec.toNat), List.map_map]
  rfl

/-! ### The statements of the family -/

/-- Settles O1, from the two ends of `CSUM` and the rejection of every other word with its opcode. -/
theorem csumReportsTheRangeChecksum : Obligations.CsumReportsTheRangeChecksum := by
  refine ⟨fun start len s => ⟨?_, fun q hlen hq hin => ?_, fun htrunc => ?_⟩, fun cw s hop hne => ?_⟩
  · exact encode_csum start len ▸ decode_encode rfl
  · rw [← compute_rangeBytes_of_holdsAt Config.alg hlen hq]
    exact congrArg _ (csumBy_of_inBounds Config.alg hin)
  · exact congrArg _ (csumBy_of_truncated Config.alg htrunc)
  · refine issueWord_of_misspelt hop (fun i hi hcw => ?_) s
    cases i with
    | csum start len => exact hne start len (hcw.symm.trans (encode_csum start len))
    | _ => cases hi

/-- Settles O2, from the four ends of `CSVER` and the rejection of every other word with its opcode. -/
theorem csverComparesWithTheStoredByte : Obligations.CsverComparesWithTheStoredByte := by
  refine ⟨fun pos start len s => ⟨?_, fun hin => ?_, fun hout => ⟨fun htrunc => ?_, fun q hlen hq hpos hrange => ?_⟩⟩,
    fun cw s hop hne => ?_⟩
  · exact encode_csver pos start len ▸ decode_encode rfl
  · exact exec_of_illegalByValue (i := .csver pos start len) hin s
  · exact congrArg _ (csverBy_of_truncated Config.alg hout htrunc)
  · rw [← compute_rangeBytes_of_holdsAt Config.alg hlen hq]
    exact ⟨fun h => congrArg _ (csverBy_of_match Config.alg ⟨hout, hpos, hrange⟩ h),
      fun h => congrArg _ (csverBy_of_mismatch Config.alg ⟨hout, hpos, hrange⟩ h)⟩
  · refine issueWord_of_misspelt hop (fun i hi hcw => ?_) s
    cases i with
    | csver pos start len => exact hne pos start len (hcw.symm.trans (encode_csver pos start len))
    | _ => cases hi

/-- Settles O3, from the three ends of `CSPUT`, its one write and the rejection of every other word with its opcode. -/
theorem csputStoresTheRangeChecksum : Obligations.CsputStoresTheRangeChecksum := by
  refine ⟨fun pos start len s => ⟨?_, fun hin => ?_, fun hout => ⟨fun htrunc => ?_, fun q hlen hq hpos hrange => ?_⟩⟩,
    fun cw s hop hne => ?_⟩
  · exact encode_csput pos start len ▸ decode_encode rfl
  · exact exec_of_illegalByValue (i := .csput pos start len) hin s
  · exact congrArg _ (csputBy_of_truncated Config.alg hout htrunc)
  · rw [← compute_rangeBytes_of_holdsAt Config.alg hlen hq]
    exact ⟨_, congrArg _ (csputBy_of_ok Config.alg pos start len s ⟨hout, hpos, hrange⟩), read_write_self _ _ _,
      fun a ha => read_write_other _ _ _ _ ha⟩
  · refine issueWord_of_misspelt hop (fun i hi hcw => ?_) s
    cases i with
    | csput pos start len => exact hne pos start len (hcw.symm.trans (encode_csput pos start len))
    | _ => cases hi

/-- Settles O40: with `at` inside its range both commands are illegal by value, and otherwise neither is. -/
theorem storedByteInsideItsRangeIsIllegal : Obligations.StoredByteInsideItsRangeIsIllegal := by
  intro pos start len s inside
  refine ⟨fun hin => ⟨?_, ?_⟩, fun hout => ?_⟩
  · exact exec_of_illegalByValue (i := .csver pos start len) hin s
  · exact exec_of_illegalByValue (i := .csput pos start len) hin s
  · obtain ⟨t, ht, htstat⟩ := exec_stat_ne_seven (i := .csver pos start len) rfl hout s
    obtain ⟨u, hu, hustat⟩ := exec_stat_ne_seven (i := .csput pos start len) rfl hout s
    exact ⟨t, u, ht, hu, htstat, hustat⟩

/-- Settles O42: both commands compute over the same range, `CSPUT` leaves that range alone, and a `Sensitive7` algorithm
tells the changed range from the one whose checksum was stored. -/
theorem verifyAgreesWithComputeAndPut : Obligations.VerifyAgreesWithComputeAndPut := by
  refine ⟨fun _ _ _ _ => ⟨rfl, rfl, rfl⟩, ?_⟩
  intro alg pos start len s hout hpos hrange v u t v'
  have hok : checksumOperandsOk s.buflen pos start len := ⟨hout, hpos, hrange⟩
  have hres : u.res = compute alg (s.rangeBytes start.toNat len.toNat) :=
    congrArg State.res (csumBy_of_inBounds alg hrange)
  have hmismatch (h : s.buf.read pos.toNat ≠ u.res) : v = s.raise .checksumMismatch pos :=
    csverBy_of_mismatch alg hok (hres ▸ h.symm)
  refine ⟨⟨fun ⟨hstat, _⟩ => ?_, fun h => ?_⟩, fun h => ?_, ?_, fun halg i c hi hc => ?_⟩
  · by_contra hne
    rw [hmismatch hne] at hstat
    exact absurd hstat (raise_stat_ne_zero s (by decide) pos)
  · have hv : v = s.done 1 := csverBy_of_match alg hok (hres.symm.trans h.symm)
    simp [hv]
  · rw [hmismatch h]
    exact ⟨rfl, rfl⟩
  · rw [show v' = t.done 1 from csverBy_csputBy_of_ok alg hok]
    exact ⟨rfl, rfl⟩
  · have hokt : checksumOperandsOk t.buflen pos start len := (csputBy_buflen alg).symm ▸ hok
    intro v''
    rw [show v'' = _ from csverBy_memWrite_of_sensitive7 alg halg hokt (compute_rangeBytes_csputBy alg hok) hi hc]
    exact ⟨rfl, rfl⟩

/-- Settles O43: the second `CSPUT` writes the byte that is already there and reports the same. -/
theorem csputIsIdempotent : Obligations.CsputIsIdempotent := by
  intro pos start len s t h
  cases h
  exact congrArg Host.Outcome.next (csputBy_csputBy Config.alg)

/-- Settles O50: the fold is the sum of the low seven bits, and the result is its negative modulo 128. -/
theorem sumCandidateClosesTheSum : Obligations.SumCandidateClosesTheSum := by
  intro q
  rw [compute_sum7TwosComplement, toNat_negate7Fin, toNat_foldl_sum7Step]
  simp only [BitVec.ofNat_eq_ofNat, BitVec.toNat_ofNat]
  omega

/-- Settles O51: the fold over the second sequence may take in the result of the first at its end. -/
theorem xorCandidateIsTheExclusiveOr : Obligations.XorCandidateIsTheExclusiveOr := by
  refine ⟨by decide, fun b => ?_, fun q q' => ?_⟩
  · rw [compute_xor7, List.foldl_cons, List.foldl_nil, xor7Step, ← extend7Fin_setWidth]
    exact congrArg extend7Fin BitVec.zero_xor
  · rw [compute_xor7, List.foldl_append, foldl_xor7Step, extend7Fin_xor, ← compute_xor7, ← compute_xor7]

/-- Settles O52: 0xA5 and the start value 0x25 are equal modulo 128, and so are a byte and its low seven bits. -/
theorem sumA5CandidateIsTheOffsetSum : Obligations.SumA5CandidateIsTheOffsetSum := by
  intro q
  have hlow := sum_low7_mod q
  rw [compute_sum7A5, toNat_extend7Fin, toNat_foldl_sum7Step]
  simp only [BitVec.ofNat_eq_ofNat, BitVec.toNat_ofNat]
  omega

/-- Settles O53, from what the three candidates have in common. -/
theorem candidatesAreSafeAndSensitive : Obligations.CandidatesAreSafeAndSensitive := by
  intro alg halg
  have hfaithful : FaithfulToLowBits alg := by
    rcases halg with rfl | rfl | rfl
    · exact faithful_sum7TwosComplement
    · exact faithful_xor7
    · exact faithful_sum7A5
  exact ⟨hfaithful.midiSafe, hfaithful.sensitive7, hfaithful.compute_le,
    fun _ _ h c => hfaithful.compute_set_eq_iff h c⟩

end Sys2Proof.Machine

/-! SUPPORT. The family of the bit fields: the mask and the laws of `pack` and `unpack`, what each of the four commands does
once its operands are known to pass or to fail, and the words that spell them. The lemmas come first, the settled statements
last. -/

namespace Sys2Proof.Machine

/-! ### Masks -/

/-- No one of the mask of a legal descriptor is shifted out (`41_bitfield.md` R90). -/
theorem toNat_fmask {sh : Shift} {w : Width} (hl : LegalField sh w) :
    (fmask sh w).toNat = (2 ^ w.toNat - 1) * 2 ^ sh.toNat := by
  obtain ⟨_, hw8, hsum⟩ := hl
  have hw : 2 ^ w.toNat ≤ 2 ^ 8 := Nat.pow_le_pow_right (by decide) hw8
  have hfit : 2 ^ w.toNat * 2 ^ sh.toNat ≤ 2 ^ 8 := by
    rw [← Nat.pow_add]
    exact Nat.pow_le_pow_right (by decide) (by omega)
  have hs : 0 < 2 ^ sh.toNat := Nat.two_pow_pos _
  have hlow : (lowMask w).toNat = 2 ^ w.toNat - 1 := Nat.mod_eq_of_lt (by omega)
  rw [fmask, BitVec.toNat_shiftLeft, hlow, Nat.shiftLeft_eq]
  refine Nat.mod_eq_of_lt ?_
  rw [Nat.sub_mul, Nat.one_mul]
  omega

theorem getLsbD_fmask_of_legal {sh : Shift} {w : Width} (hl : LegalField sh w) (i : Nat) :
    (fmask sh w).getLsbD i = decide (sh.toNat ≤ i ∧ i < sh.toNat + w.toNat) := by
  obtain ⟨_, _, hsum⟩ := hl
  rw [getLsbD_fmask, decide_eq_decide]
  omega

/-- Two fields that are not disjoint share the higher of their lowest bits (R90). -/
theorem fmask_and_fmask_eq_zero_iff {sh sh₂ : Shift} {w w₂ : Width} (hl : LegalField sh w) (hl₂ : LegalField sh₂ w₂) :
    fmask sh w &&& fmask sh₂ w₂ = 0 ↔ sh.toNat + w.toNat ≤ sh₂.toNat ∨ sh₂.toNat + w₂.toNat ≤ sh.toNat := by
  have hbit (i : Nat) : (fmask sh w &&& fmask sh₂ w₂).getLsbD i = true ↔
      (sh.toNat ≤ i ∧ i < sh.toNat + w.toNat) ∧ sh₂.toNat ≤ i ∧ i < sh₂.toNat + w₂.toNat := by
    rw [BitVec.getLsbD_and, getLsbD_fmask_of_legal hl, getLsbD_fmask_of_legal hl₂, Bool.and_eq_true, decide_eq_true_iff,
      decide_eq_true_iff]
  obtain ⟨hw, _, _⟩ := hl
  obtain ⟨hw₂, _, _⟩ := hl₂
  refine ⟨fun h => by_contra fun hmeet => ?_, fun hdis => BitVec.eq_of_getLsbD_eq fun i _ => ?_⟩
  · have hboth := (hbit (max sh.toNat sh₂.toNat)).mpr (by omega)
    rw [h] at hboth
    exact absurd hboth (by simp)
  · have hnone := mt (hbit i).mp (by omega)
    simpa using hnone

/-! ### Unpacking and packing -/

section
variable (b : Byte) {sh sh₂ : Shift} {w w₂ : Width} {v v' v₂ : Val}

/-- What is unpacked fits the width, so it can be packed back (R91, R100). -/
theorem toNat_unpack_lt (sh : Shift) (w : Width) : (unpack b sh w).toNat < 2 ^ w.toNat := by
  rw [unpack_eq_ofNat, BitVec.toNat_ofNat]
  exact (Nat.mod_le _ _).trans_lt (Nat.mod_lt _ (Nat.two_pow_pos _))

/-- The field as a slice of the byte (R91). -/
theorem unpack_eq_extractLsb' (sh : Shift) (w : Width) : unpack b sh w = (b.extractLsb' sh.toNat w.toNat).setWidth 8 := by
  apply BitVec.eq_of_getLsbD_eq
  intro i hi
  rw [getLsbD_unpack, BitVec.getLsbD_setWidth, BitVec.getLsbD_extractLsb']
  simp [hi, Bool.and_comm]

/-- The field masked first and shifted afterwards (R91). -/
theorem unpack_eq_masked_shift (sh : Shift) (w : Width) : unpack b sh w = (b &&& fmask sh w) >>> sh.toNat := by
  apply BitVec.eq_of_getLsbD_eq
  intro i hi
  rw [getLsbD_unpack, BitVec.getLsbD_ushiftRight, BitVec.getLsbD_and, getLsbD_fmask]
  by_cases h8 : sh.toNat + i < 8
  · simp [hi, h8]
  · simp [BitVec.getLsbD_of_ge b _ (Nat.le_of_not_lt h8)]

/-- An unpacked field extended to an operand is the same number. -/
theorem toNat_setWidth_unpack (sh : Shift) (w : Width) : ((unpack b sh w).setWidth 16).toNat = (unpack b sh w).toNat := by
  rw [BitVec.toNat_setWidth]
  exact Nat.mod_eq_of_lt (by omega)

/-- A byte is the packed one when it has the value's bits in the field and the old bits elsewhere (R92). -/
theorem eq_pack_of_bits (hv : v.toNat < 2 ^ w.toNat) {r : Byte} (hr : ∀ i, i < 8 → r.getLsbD i =
    if sh.toNat ≤ i ∧ i < sh.toNat + w.toNat then v.getLsbD (i - sh.toNat) else b.getLsbD i) : r = pack b sh w v :=
  BitVec.eq_of_getLsbD_eq fun i hi => (hr i hi).trans (getLsbD_pack_of_fits b sh w v hv i hi).symm

/-- Law (a) of R93. -/
theorem toNat_unpack_pack (hl : LegalField sh w) (hv : v.toNat < 2 ^ w.toNat) :
    (unpack (pack b sh w v) sh w).toNat = v.toNat := by
  obtain ⟨_, hw8, hsum⟩ := hl
  have hv8 : v.toNat < 2 ^ 8 := hv.trans_le (Nat.pow_le_pow_right (by decide) hw8)
  have hfield : unpack (pack b sh w v) sh w = v.setWidth 8 := by
    apply BitVec.eq_of_getLsbD_eq
    intro i hi
    rw [getLsbD_unpack, BitVec.getLsbD_setWidth]
    by_cases hiw : i < w.toNat
    · rw [getLsbD_pack_inside b sh w v (sh.toNat + i) (by omega) (by omega) (by omega)]
      simp [hi, hiw]
    · simp [hiw, getLsbD_of_fits v w hv i (Nat.le_of_not_lt hiw)]
  rw [hfield, BitVec.toNat_setWidth, Nat.mod_eq_of_lt hv8]

/-- Law (b) of R93. -/
theorem pack_unpack (sh : Shift) (w : Width) : pack b sh w ((unpack b sh w).setWidth 16) = b := by
  have hfits : ((unpack b sh w).setWidth 16).toNat < 2 ^ w.toNat :=
    (toNat_setWidth_unpack b sh w).trans_lt (toNat_unpack_lt b sh w)
  refine (eq_pack_of_bits b hfits fun i hi => ?_).symm
  split
  · next h =>
    rw [BitVec.getLsbD_setWidth, getLsbD_unpack, Nat.add_sub_cancel' h.1]
    simp [show i - sh.toNat < 16 by omega, show i - sh.toNat < 8 by omega, show i - sh.toNat < w.toNat by omega]
  · rfl

/-- Law (c) of R93. -/
theorem pack_and_not_fmask (hv : v.toNat < 2 ^ w.toNat) :
    pack b sh w v &&& ~~~ fmask sh w = b &&& ~~~ fmask sh w := by
  apply BitVec.eq_of_getLsbD_eq
  intro i hi
  rw [BitVec.getLsbD_and, BitVec.getLsbD_and, BitVec.getLsbD_not, getLsbD_fmask, getLsbD_pack_of_fits b sh w v hv i hi]
  split
  · next h => simp [hi, h]
  · rfl

/-- Law (d) of R93, the half about reading. -/
theorem unpack_pack_of_disjoint (hv : v.toNat < 2 ^ w.toNat)
    (hdis : sh.toNat + w.toNat ≤ sh₂.toNat ∨ sh₂.toNat + w₂.toNat ≤ sh.toNat) :
    unpack (pack b sh w v) sh₂ w₂ = unpack b sh₂ w₂ := by
  apply BitVec.eq_of_getLsbD_eq
  intro i _
  rw [getLsbD_unpack, getLsbD_unpack]
  by_cases hiw : i < w₂.toNat
  · rw [getLsbD_pack_outside b sh w v hv (sh₂.toNat + i) (by omega)]
  · simp [hiw]

/-- Law (d) of R93, the half about packing. -/
theorem pack_pack_of_disjoint (hv : v.toNat < 2 ^ w.toNat) (hv₂ : v₂.toNat < 2 ^ w₂.toNat)
    (hdis : sh.toNat + w.toNat ≤ sh₂.toNat ∨ sh₂.toNat + w₂.toNat ≤ sh.toNat) :
    pack (pack b sh w v) sh₂ w₂ v₂ = pack (pack b sh₂ w₂ v₂) sh w v := by
  refine eq_pack_of_bits _ hv fun i hi => ?_
  rw [getLsbD_pack_of_fits _ sh₂ w₂ v₂ hv₂ i hi, getLsbD_pack_of_fits b sh w v hv i hi,
    getLsbD_pack_of_fits b sh₂ w₂ v₂ hv₂ i hi]
  by_cases h₂ : sh₂.toNat ≤ i ∧ i < sh₂.toNat + w₂.toNat
  · rw [if_pos h₂, if_neg (by omega), if_pos h₂]
  · rw [if_neg h₂, if_neg h₂]

/-- Law (e) of R93. -/
theorem pack_pack_same (hv : v.toNat < 2 ^ w.toNat) (hv' : v'.toNat < 2 ^ w.toNat) :
    pack (pack b sh w v) sh w v' = pack b sh w v' := by
  refine eq_pack_of_bits b hv' fun i hi => ?_
  rw [getLsbD_pack_of_fits _ sh w v' hv' i hi, getLsbD_pack_of_fits b sh w v hv i hi]
  split <;> rfl

end

/-! ### The words of the field commands -/

/-- The zero high half of an operand byte joins the reserved bits before it (`30_encoding.md` R53). -/
theorem append_zero_append_setWidth (head : BitVec 11) (b : Byte) : head ++ 0#5 ++ b.setWidth 16 = head ++ 0#13 ++ b := by
  apply BitVec.eq_of_getLsbD_eq
  intro i _
  simp only [BitVec.getLsbD_append, BitVec.getLsbD_setWidth, BitVec.getLsbD_zero]
  by_cases h8 : i < 8
  · simp [h8, show i < 16 by omega]
  · rw [BitVec.getLsbD_of_ge b i (by omega)]
    by_cases h21 : i < 21
    · simp [h8, show i - 16 < 5 by omega, show i - 8 < 13 by omega]
    · simp [h8, show ¬ i < 16 by omega, show ¬ i - 16 < 5 by omega, show ¬ i - 8 < 13 by omega,
        show i - 16 - 5 = i - 8 - 13 by omega]

/-- Two zero operands are one zero field. -/
theorem append_zero_append_zero (head : BitVec 32) : head ++ 0#16 ++ 0#16 = head ++ 0#32 := by
  apply BitVec.eq_of_getLsbD_eq
  intro i _
  simp only [BitVec.getLsbD_append, BitVec.getLsbD_zero]
  by_cases h32 : i < 32
  · simp [h32, show i - 16 < 16 by omega]
  · simp [h32, show ¬ i < 16 by omega, show ¬ i - 16 < 16 by omega, show i - 16 - 16 = i - 32 by omega]

theorem encode_pack (b : Byte) (sh : Shift) (w : Width) (v : Val) :
    encode (.pack b sh w v) = 0x5#4 ++ sh ++ w ++ 0#13 ++ b ++ v ++ 0#16 :=
  congrArg (fun head : BitVec 32 => head ++ v ++ 0#16) (append_zero_append_setWidth (0x5#4 ++ sh ++ w) b)

theorem encode_unpk (b : Byte) (sh : Shift) (w : Width) :
    encode (.unpk b sh w) = 0x4#4 ++ sh ++ w ++ 0#13 ++ b ++ 0#32 :=
  (append_zero_append_zero _).trans
    (congrArg (fun head : BitVec 32 => head ++ 0#32) (append_zero_append_setWidth (0x4#4 ++ sh ++ w) b))

theorem encode_ldf (off : Off) (sh : Shift) (w : Width) :
    encode (.ldf off sh w) = 0x6#4 ++ sh ++ w ++ 0#5 ++ off ++ 0#32 :=
  append_zero_append_zero _

theorem encode_stf (off : Off) (sh : Shift) (w : Width) (v : Val) :
    encode (.stf off sh w v) = 0x7#4 ++ sh ++ w ++ 0#5 ++ off ++ v ++ 0#16 := rfl

/-- A word that no well-formed command of its own opcode spells is no command at all (R58, R59). -/
theorem issueWord_of_no_wellFormed {cw : CmdWord} {op : BitVec 4} (hop : fieldOP cw = op)
    (h : ∀ i : Instr, i.wellFormed = true → opcode i = op → encode i ≠ cw) (s : State) :
    issueWord cw s = .next (s.raise .illegalCommand 0) := by
  cases hd : decode cw with
  | error r => exact issueWord_of_decode_error hd s
  | ok i =>
    obtain ⟨hwf, hcw⟩ := encode_of_decode hd
    exact absurd hcw (h i hwf (by rw [← fieldOP_encode, hcw, hop]))

/-! ### Each command with its operands known to pass or to fail -/

section
variable {off : Off} {sh : Shift} {w : Width} {v : Val} (hl : LegalField sh w)
include hl

theorem withDescriptor_of_legalField (s go : State) : withDescriptor sh w s go = go :=
  withDescriptor_legal sh w s go ((legalField_iff sh w).mp hl)

theorem exec_unpk_of_legal (b : Byte) (s : State) : exec (.unpk b sh w) s = .next (s.done (unpack b sh w)) :=
  congrArg _ (withDescriptor_of_legalField hl s _)

theorem exec_pack_of_tooWide (b : Byte) (s : State) (hv : 2 ^ w.toNat ≤ v.toNat) :
    exec (.pack b sh w v) s = .next (s.raise .fieldOutOfRange 0) :=
  congrArg _ ((withDescriptor_of_legalField hl s _).trans
    (if_neg fun h => Nat.not_lt_of_le hv ((fitsWidth_iff v w).mp h)))

theorem exec_pack_of_fits (b : Byte) (s : State) (hv : v.toNat < 2 ^ w.toNat) :
    exec (.pack b sh w v) s = .next (s.done (pack b sh w v)) :=
  congrArg _ ((withDescriptor_of_legalField hl s _).trans (if_pos ((fitsWidth_iff v w).mpr hv)))

theorem exec_ldf_of_truncated {s : State} (hout : s.buflen.toNat ≤ off.toNat) :
    exec (.ldf off sh w) s = .next (s.raise .truncatedInput s.buflen) :=
  congrArg _ ((withDescriptor_of_legalField hl s _).trans
    (if_neg fun h => Nat.not_lt_of_le hout ((offInBounds_iff _ _).mp h)))

theorem exec_stf_of_truncated {s : State} (hv : v.toNat < 2 ^ w.toNat) (hout : s.buflen.toNat ≤ off.toNat) :
    exec (.stf off sh w v) s = .next (s.raise .truncatedInput s.buflen) :=
  congrArg _ ((withDescriptor_of_legalField hl s _).trans ((if_pos ((fitsWidth_iff v w).mpr hv)).trans
    (if_neg fun h => Nat.not_lt_of_le hout ((offInBounds_iff _ _).mp h))))

end

theorem done_stat_ne_five (s : State) (r : Byte) : (s.done r).stat ≠ 5 := by
  rw [done_stat]
  decide

theorem truncated_stat_ne_five (s : State) (e : Off) : (s.raise .truncatedInput e).stat ≠ 5 := by
  rw [raise_stat]
  decide

/-! ### The statements of the family -/

/-- Settles O46: the 36 legal descriptors are counted, and the mask is known bit by bit. -/
theorem descriptorsAndMasks : Obligations.DescriptorsAndMasks :=
  ⟨by decide, fun _ _ hl => ⟨toNat_fmask hl, getLsbD_fmask_of_legal hl⟩, fun _ _ _ _ => fmask_and_fmask_eq_zero_iff⟩

/-- Settles O47: the masked form reads nothing of the byte outside the field. -/
theorem unpackForms : Obligations.UnpackForms := by
  intro b b' sh w _
  refine ⟨rfl, unpack_eq_extractLsb' b sh w, unpack_eq_masked_shift b sh w, toNat_unpack_lt b sh w, fun h => ?_⟩
  rw [unpack_eq_masked_shift, h, ← unpack_eq_masked_shift]

/-- Settles O48, law by law. -/
theorem packUnpackLaws : Obligations.PackUnpackLaws := by
  intro b sh sh₂ w w₂ v v' v₂ hl _ hv hv' hv₂
  exact ⟨toNat_unpack_pack b hl hv, pack_unpack b sh w, pack_and_not_fmask b hv,
    fun hdis => ⟨unpack_pack_of_disjoint b hv hdis, pack_pack_of_disjoint b hv hv₂ hdis⟩, pack_pack_same b hv hv'⟩

/-- Settles O49: bit 7 is outside the 7-bit field, and the whole byte is all of the value. -/
theorem fixedWidthFields : Obligations.FixedWidthFields := by
  intro b v
  refine ⟨unpack_low7 b, fun _ => pack_low7 b v, fun hv => ?_, fun hv => ?_⟩
  · exact getLsbD_pack_outside 0x00 0 7 v hv 7 (.inr (by decide))
  · rw [pack_whole, BitVec.toNat_setWidth, Nat.mod_eq_of_lt hv]

/-- Settles O4: a legal descriptor is all `UNPK` needs, and no other word has its opcode. -/
theorem unpkReportsTheField : Obligations.UnpkReportsTheField := by
  refine ⟨fun b sh w s hl => ⟨?_, ?_⟩, fun cw s hop hne => ?_⟩
  · exact encode_unpk b sh w ▸ decode_encode ((legalField_iff sh w).mp hl)
  · exact unpack_eq_ofNat b sh w ▸ exec_unpk_of_legal hl b s
  · refine issueWord_of_no_wellFormed hop (fun i hwf hi hcw => ?_) s
    cases i with
    | unpk b sh w => exact hne b sh w ((legalField_iff sh w).mpr hwf) (hcw.symm.trans (encode_unpk b sh w))
    | _ => cases hi

/-- Settles O5: the packed byte is the one with these bits. -/
theorem packReportsThePackedByte : Obligations.PackReportsThePackedByte := by
  refine ⟨fun b sh w v s hl => ⟨?_, exec_pack_of_tooWide hl b s, fun hv r hr => ?_⟩, fun cw s hop hne => ?_⟩
  · exact encode_pack b sh w v ▸ decode_encode ((legalField_iff sh w).mp hl)
  · exact eq_pack_of_bits b hv hr ▸ exec_pack_of_fits hl b s hv
  · refine issueWord_of_no_wellFormed hop (fun i hwf hi hcw => ?_) s
    cases i with
    | pack b sh w v => exact hne b sh w v ((legalField_iff sh w).mpr hwf) (hcw.symm.trans (encode_pack b sh w v))
    | _ => cases hi

/-- Settles O6, from the two ends of `LDF`. -/
theorem ldfReportsTheField : Obligations.LdfReportsTheField := by
  refine ⟨fun off sh w s hl => ⟨?_, fun hin => ?_, exec_ldf_of_truncated hl⟩, fun cw s hop hne => ?_⟩
  · exact encode_ldf off sh w ▸ decode_encode ((legalField_iff sh w).mp hl)
  · exact unpack_eq_ofNat (s.buf.read off.toNat) sh w ▸ exec_ldf_of_inBounds hl hin
  · refine issueWord_of_no_wellFormed hop (fun i hwf hi hcw => ?_) s
    cases i with
    | ldf off sh w => exact hne off sh w ((legalField_iff sh w).mpr hwf) (hcw.symm.trans (encode_ldf off sh w))
    | _ => cases hi

/-- Settles O7, from the three ends of `STF` and its one write. -/
theorem stfStoresTheField : Obligations.StfStoresTheField := by
  refine ⟨fun off sh w v s hl => ⟨?_, exec_stf_of_tooWide hl, fun hv => ⟨exec_stf_of_truncated hl hv, fun hin => ?_⟩⟩,
    fun cw s hop hne => ?_⟩
  · exact encode_stf off sh w v ▸ decode_encode ((legalField_iff sh w).mp hl)
  · obtain ⟨m, hexec, hself, hother⟩ := exists_memory_of_exec_stf hl hv hin
    exact ⟨m, hexec, fun i hi => hself ▸ getLsbD_pack_of_fits _ sh w v hv i hi, hother⟩
  · refine issueWord_of_no_wellFormed hop (fun i hwf hi hcw => ?_) s
    cases i with
    | stf off sh w v => exact hne off sh w v ((legalField_iff sh w).mpr hwf) (hcw.symm.trans (encode_stf off sh w v))
    | _ => cases hi

/-- Settles O39: the width test of `PACK` and `STF` comes first, and the other ends are of other classes. -/
theorem fieldOutOfRangeExactlyWhenTooWide : Obligations.FieldOutOfRangeExactlyWhenTooWide := by
  intro b off sh w v s hl
  have hstat {t : State} (hv : v.toNat < 2 ^ w.toNat) (ht : t.stat ≠ 5) : t.stat = 5 ↔ 2 ^ w.toNat ≤ v.toNat :=
    iff_of_false ht (Nat.not_le_of_lt hv)
  have hbuf := Nat.lt_or_ge off.toNat s.buflen.toNat
  refine ⟨?_, ?_, ⟨_, exec_unpk_of_legal hl b s, done_stat_ne_five s _, toNat_unpack_lt b sh w⟩, ?_⟩
  · rcases Nat.lt_or_ge v.toNat (2 ^ w.toNat) with hv | hv
    · exact ⟨_, exec_pack_of_fits hl b s hv, hstat hv (done_stat_ne_five s _)⟩
    · exact ⟨_, exec_pack_of_tooWide hl b s hv, iff_of_true rfl hv⟩
  · rcases Nat.lt_or_ge v.toNat (2 ^ w.toNat) with hv | hv
    · rcases hbuf with hin | hout
      · exact ⟨_, exec_stf_of_fits hl hv hin, hstat hv (done_stat_ne_five _ _)⟩
      · exact ⟨_, exec_stf_of_truncated hl hv hout, hstat hv (truncated_stat_ne_five s _)⟩
    · exact ⟨_, exec_stf_of_tooWide hl hv, iff_of_true rfl hv⟩
  · rcases hbuf with hin | hout
    · exact ⟨_, exec_ldf_of_inBounds hl hin, done_stat_ne_five s _, toNat_unpack_lt _ sh w⟩
    · exact ⟨_, exec_ldf_of_truncated hl hout, truncated_stat_ne_five s _, Nat.two_pow_pos _⟩

/-- Settles O45: `STF` leaves the packed byte at the offset, so the laws of `pack` and `unpack` say what `LDF` reads. -/
theorem loadAfterStoreOfAField : Obligations.LoadAfterStoreOfAField := by
  intro off sh sh₂ w w₂ v s hl hl₂ hin
  refine ⟨fun hv => ⟨_, exec_stf_of_fits hl hv hin, rfl, fun t' hlen hread => ?_⟩, ?_⟩
  · have hin' : off.toNat < t'.buflen.toNat := by rwa [hlen]
    rw [done_buf, memWrite_buf, read_write_self] at hread
    refine ⟨⟨_, exec_ldf_of_inBounds hl hin', ?_, rfl⟩, fun hdis =>
      ⟨_, _, exec_ldf_of_inBounds hl₂ hin, exec_ldf_of_inBounds hl₂ hin', ?_⟩⟩
    · rw [done_res, hread, toNat_unpack_pack _ hl hv]
    · rw [done_res, done_res, hread, unpack_pack_of_disjoint _ hv hdis]
  · have hfits := (toNat_setWidth_unpack (s.buf.read off.toNat) sh w).trans_lt (toNat_unpack_lt _ sh w)
    refine ⟨_, _, exec_ldf_of_inBounds hl hin, rfl, exec_stf_of_fits hl hfits hin, rfl, fun a => ?_⟩
    rw [done_buf, memWrite_buf, done_buf, done_res, pack_unpack, read_write]
    split
    · next ha => rw [ha]
    · rfl

end Sys2Proof.Machine

/-! SUPPORT. The family of the reports: which end each command comes to in the order of `60_exceptions.md` R117, the offset
each class reports, and what the host's own events do. The lemmas come first, the settled statements last. -/

namespace Sys2Proof.Machine

/-! ### Which end a command comes to -/

/-- A term with an illegal descriptor ends as the illegal word it spells (`30_encoding.md` R58 (e), log 8). -/
theorem exec_of_not_wellFormed {i : Instr} (h : i.wellFormed = false) (s : State) :
    exec i s = .next (s.raise .illegalCommand 0) := by
  cases i with
  | csum start len => cases h
  | csver pos start len => cases h
  | csput pos start len => cases h
  | unpk b sh w => exact congrArg _ (withDescriptor_illegal sh w s _ h)
  | pack b sh w v => exact congrArg _ (withDescriptor_illegal sh w s _ h)
  | ldf off sh w => exact congrArg _ (withDescriptor_illegal sh w s _ h)
  | stf off sh w v => exact congrArg _ (withDescriptor_illegal sh w s _ h)

/-- The offset that command `i` reports with each class, the buffer having `n` bytes (`60_exceptions.md` R115). -/
def OffsetReported (i : Instr) (n e : Off) : ReportClass → Prop
  | .ok => e = 0
  | .malformedFrame => False
  | .checksumMismatch => ∃ pos start len, i = .csver pos start len ∧ e = pos
  | .invalidSourceCount => False
  | .truncatedInput => e = n
  | .fieldOutOfRange => (∃ off sh w v, i = .stf off sh w v ∧ e = off) ∨ ∃ b sh w v, i = .pack b sh w v ∧ e = 0
  | .reserved => False
  | .illegalCommand => e = 0

/-- Operands of `CSVER` and `CSPUT` that pass the tests of R80 and R34. -/
theorem checksumOperandsOk_of_inBounds {n pos start len : Off}
    (hout : ¬ (start.toNat ≤ pos.toNat ∧ pos.toNat < start.toNat + len.toNat))
    (hin : ¬ (n.toNat ≤ pos.toNat ∨ n.toNat < start.toNat + len.toNat)) : checksumOperandsOk n pos start len := by
  unfold checksumOperandsOk
  omega

section
variable {i : Instr} {s : State}

/-- `PACK` and `STF` test the width before the bounds (R100, R117). -/
theorem exec_of_valueTooWide (hwf : i.wellFormed = true) (h : ValueTooWide i) :
    ∃ e, exec i s = .next (s.raise .fieldOutOfRange e) ∧ OffsetReported i s.buflen e .fieldOutOfRange := by
  cases i with
  | csum start len => exact h.elim
  | csver pos start len => exact h.elim
  | csput pos start len => exact h.elim
  | unpk b sh w => exact h.elim
  | pack b sh w v =>
    exact ⟨0, exec_pack_of_tooWide ((legalField_iff sh w).mpr hwf) b s h, .inr ⟨b, sh, w, v, rfl, rfl⟩⟩
  | ldf off sh w => exact h.elim
  | stf off sh w v =>
    exact ⟨off, exec_stf_of_tooWide ((legalField_iff sh w).mpr hwf) h, .inl ⟨off, sh, w, v, rfl, rfl⟩⟩

section
variable (hwf : i.wellFormed = true) (hillegal : ¬ IllegalByValue i) (hwide : ¬ ValueTooWide i)
include hwf hillegal hwide

/-- Once the tests on operand values pass, an offset out of bounds is `TruncatedInput` (R34, R117). -/
theorem exec_of_outOfBounds (h : OutOfBounds s.buflen.toNat i) : exec i s = .next (s.raise .truncatedInput s.buflen) := by
  cases i with
  | csum start len => exact congrArg _ (csumBy_of_truncated _ h)
  | csver pos start len => exact congrArg _ (csverBy_of_truncated _ hillegal h)
  | csput pos start len => exact congrArg _ (csputBy_of_truncated _ hillegal h)
  | unpk b sh w => exact h.elim
  | pack b sh w v => exact h.elim
  | ldf off sh w => exact exec_ldf_of_truncated ((legalField_iff sh w).mpr hwf) h
  | stf off sh w v => exact exec_stf_of_truncated ((legalField_iff sh w).mpr hwf) (Nat.lt_of_not_le hwide) h

/-- Once every test passes, a command other than `CSVER` succeeds, on the state before or with its one byte stored. -/
theorem exec_of_inBounds (h : ¬ OutOfBounds s.buflen.toNat i) (hcsver : ∀ pos start len, i ≠ .csver pos start len) :
    ∃ u r, exec i s = .next (State.done u r) := by
  cases i with
  | csum start len => exact ⟨_, _, congrArg _ (csumBy_of_inBounds _ (Nat.le_of_not_lt h))⟩
  | csver pos start len => exact absurd rfl (hcsver pos start len)
  | csput pos start len =>
    exact ⟨_, _, congrArg _ (csputBy_of_ok _ pos start len s (checksumOperandsOk_of_inBounds hillegal h))⟩
  | unpk b sh w => exact ⟨_, _, exec_unpk_of_legal ((legalField_iff sh w).mpr hwf) b s⟩
  | pack b sh w v => exact ⟨_, _, exec_pack_of_fits ((legalField_iff sh w).mpr hwf) b s (Nat.lt_of_not_le hwide)⟩
  | ldf off sh w => exact ⟨_, _, exec_ldf_of_inBounds ((legalField_iff sh w).mpr hwf) (Nat.lt_of_not_le h)⟩
  | stf off sh w v =>
    exact ⟨_, _, exec_stf_of_fits ((legalField_iff sh w).mpr hwf) (Nat.lt_of_not_le hwide) (Nat.lt_of_not_le h)⟩

end
end

/-- `CSVER` once every test passes: success on a match, a report at `at` on a mismatch (R78). -/
theorem exec_csver_of_ok {pos start len : Off} {s : State} (hok : checksumOperandsOk s.buflen pos start len) :
    (compute Config.alg (s.rangeBytes start.toNat len.toNat) = s.buf.read pos.toNat ∧
      exec (.csver pos start len) s = .next (s.done 1)) ∨
    (compute Config.alg (s.rangeBytes start.toNat len.toNat) ≠ s.buf.read pos.toNat ∧
      exec (.csver pos start len) s = .next (s.raise .checksumMismatch pos)) := by
  by_cases h : compute Config.alg (s.rangeBytes start.toNat len.toNat) = s.buf.read pos.toNat
  · exact .inl ⟨h, congrArg _ (csverBy_of_match _ hok h)⟩
  · exact .inr ⟨h, congrArg _ (csverBy_of_mismatch _ hok h)⟩

/-! ### Classes and the offsets they report -/

theorem stat_injective : Function.Injective ReportClass.stat := by
  intro c d
  cases c <;> cases d <;> decide

/-- The values of `STAT` that R112 leaves. -/
theorem stat_of_reported {c : ReportClass} (h : c.reported = true) :
    c.stat = 0 ∨ c.stat = 2 ∨ c.stat = 4 ∨ c.stat = 5 ∨ c.stat = 7 := by
  cases c with
  | ok => exact .inl rfl
  | checksumMismatch => exact .inr (.inl rfl)
  | truncatedInput => exact .inr (.inr (.inl rfl))
  | fieldOutOfRange => exact .inr (.inr (.inr (.inl rfl)))
  | illegalCommand => exact .inr (.inr (.inr (.inr rfl)))
  | malformedFrame => cases h
  | invalidSourceCount => cases h
  | reserved => cases h

/-- Every command ends with a class and the offset that belongs to it. -/
theorem exists_offsetReported (i : Instr) (s : State) :
    ∃ t c, exec i s = .next t ∧ t.stat = c.stat ∧ OffsetReported i s.buflen t.eoff c := by
  cases hwf : i.wellFormed with
  | false => exact ⟨_, .illegalCommand, exec_of_not_wellFormed hwf s, rfl, rfl⟩
  | true =>
    by_cases hillegal : IllegalByValue i
    · exact ⟨_, .illegalCommand, exec_of_illegalByValue hillegal s, rfl, rfl⟩
    by_cases hwide : ValueTooWide i
    · obtain ⟨e, h, he⟩ := exec_of_valueTooWide (s := s) hwf hwide
      exact ⟨_, .fieldOutOfRange, h, rfl, he⟩
    by_cases hout : OutOfBounds s.buflen.toNat i
    · exact ⟨_, .truncatedInput, exec_of_outOfBounds hwf hillegal hwide hout, rfl, rfl⟩
    by_cases hcsver : ∀ pos start len, i ≠ .csver pos start len
    · obtain ⟨u, r, h⟩ := exec_of_inBounds hwf hillegal hwide hout hcsver
      exact ⟨_, .ok, h, rfl, rfl⟩
    obtain ⟨pos, start, len, rfl⟩ : ∃ pos start len, i = .csver pos start len := by simpa using hcsver
    rcases exec_csver_of_ok (checksumOperandsOk_of_inBounds hillegal hout) with ⟨_, h⟩ | ⟨_, h⟩
    · exact ⟨_, .ok, h, rfl, rfl⟩
    · exact ⟨_, .checksumMismatch, h, rfl, pos, start, len, rfl, rfl⟩

/-- The class in `STAT` says what `EOFF` is (R115). -/
theorem offsetReported_of_exec {i : Instr} {s t : State} {c : ReportClass} (h : exec i s = .next t)
    (hc : t.stat = c.stat) : OffsetReported i s.buflen t.eoff c := by
  obtain ⟨u, d, hu, hd, he⟩ := exists_offsetReported i s
  cases hu.symm.trans h
  exact stat_injective (hd.symm.trans hc) ▸ he

/-! ### Attached bytes -/

theorem toNat_attached_buflen (s : State) {bytes : List Byte} (hlen : bytes.length ≤ 65535) :
    (s.attached bytes).buflen.toNat = bytes.length :=
  Nat.mod_eq_of_lt (by omega)

/-- The buffer holds the attached bytes from offset 0 (R128). -/
theorem holdsAt_attached (s : State) (bytes : List Byte) : (s.attached bytes).HoldsAt 0 bytes :=
  read_ofBytes 0 bytes

theorem bufBytes_attached (s : State) {bytes : List Byte} (hlen : bytes.length ≤ 65535) :
    (s.attached bytes).bufBytes = bytes := by
  rw [State.bufBytes, toNat_attached_buflen s hlen]
  exact rangeBytes_eq_of_holdsAt _ 0 bytes (holdsAt_attached s bytes)

@[simp] theorem bufBytes_withEvents (s : State) (es : List HostEvent) : (s.withEvents es).bufBytes = s.bufBytes := rfl

/-- The bytes that `Detach` hands over are those of the buffer (R129). -/
theorem holdsAt_bufBytes (s : State) : s.HoldsAt 0 s.bufBytes :=
  fun i h => (getElem_rangeBytes s 0 s.buflen.toNat i h).symm

/-! ### The statements of the family -/

/-- Settles O36, rank by rank in the order of the tests. -/
theorem reportsFollowThePriority : Obligations.ReportsFollowThePriority := by
  intro cw s
  cases hd : decode cw with
  | error r => exact ⟨_, issueWord_of_decode_error hd s, fun _ _ => rfl, nofun⟩
  | ok i =>
    have hwf := (encode_of_decode hd).1
    obtain ⟨t, ht, _⟩ := exec_ending i s
    refine ⟨t, (issueWord_of_decode_ok hd s).trans ht, nofun, ?_⟩
    rintro _ ⟨⟩
    refine ⟨fun h => ?_, fun _ h => ?_, fun hillegal hwide h => ?_, fun hillegal hwide hin => ⟨fun hcsver => ?_, ?_⟩⟩
    · cases ht.symm.trans (exec_of_illegalByValue h s)
      rfl
    · obtain ⟨e, he, hoff⟩ := exec_of_valueTooWide (s := s) hwf h
      cases ht.symm.trans he
      refine ⟨rfl, ?_⟩
      rintro off sh w v rfl
      obtain ⟨_, _, _, _, ⟨⟩, heoff⟩ | ⟨_, _, _, _, ⟨⟩, _⟩ := hoff
      exact heoff
    · cases ht.symm.trans (exec_of_outOfBounds hwf hillegal hwide h)
      rfl
    · obtain ⟨u, r, hu⟩ := exec_of_inBounds hwf hillegal hwide hin hcsver
      cases ht.symm.trans hu
      rfl
    · rintro pos start len rfl
      rcases exec_csver_of_ok (checksumOperandsOk_of_inBounds hillegal hin) with ⟨hsum, h⟩ | ⟨hsum, h⟩ <;>
        cases ht.symm.trans h
      · refine ⟨.inl rfl, fun q hlen hq => iff_of_false (by simp) (not_not_intro ?_)⟩
        exact (compute_rangeBytes_of_holdsAt _ hlen hq).symm.trans hsum
      · refine ⟨.inr rfl, fun q hlen hq => iff_of_true rfl ?_⟩
        exact (compute_rangeBytes_of_holdsAt _ hlen hq).symm.trans_ne hsum

/-- Settles O37: a word that does not decode is `IllegalCommand(0)`, and a command's class says its offset. -/
theorem reportOffsetsByClass : Obligations.ReportOffsetsByClass := by
  refine ⟨fun cw r s hd => ⟨_, issueWord_of_decode_error hd s, rfl⟩, fun i s t h => ?_⟩
  exact ⟨offsetReported_of_exec (c := .ok) h, offsetReported_of_exec (c := .checksumMismatch) h,
    offsetReported_of_exec (c := .truncatedInput) h, offsetReported_of_exec (c := .fieldOutOfRange) h,
    offsetReported_of_exec (c := .illegalCommand) h⟩

/-- Settles O35, from the three ways a command can end. -/
theorem statIsAlwaysAReportedClass : Obligations.StatIsAlwaysAReportedClass := by
  intro cw s
  obtain ⟨t, ht, hend⟩ := issueWord_ending cw s
  refine ⟨t, ht, ?_⟩
  cases hend with
  | raised c e hc _ h => exact h ▸ stat_of_reported hc
  | finished r h => exact h ▸ .inl rfl
  | stored o b r _ h => exact h ▸ .inl rfl

/-- Settles O38: only an ending with `STAT` = 0 writes a byte or a result. -/
theorem errorsLeaveTheBufferAlone : Obligations.ErrorsLeaveTheBufferAlone := by
  intro cw s
  obtain ⟨t, ht, hend⟩ := issueWord_ending cw s
  refine ⟨t, ht, fun hstat => ?_, hend.frame.1⟩
  cases hend with
  | raised c e _ _ h => exact h ▸ ⟨rfl, rfl⟩
  | finished r h => exact absurd (h ▸ rfl) hstat
  | stored o b r _ h => exact absurd (h ▸ rfl) hstat

/-- Settles O23: the accepted `Attach` puts the bytes into the buffer and writes nothing else. -/
theorem attachSetsTheBuffer : Obligations.AttachSetsTheBuffer := by
  intro s bytes es hev hclosed hlen
  rcases attachBuffer_cases bytes (s.withEvents es) with ⟨hopen, _⟩ | ⟨_, _, h⟩ | ⟨_, hlong, _⟩
  · rw [withEvents_sessionOpen, hclosed] at hopen
    cases hopen
  · exact ⟨_, (step_event s _ es hev).trans h, toNat_attached_buflen _ hlen, holdsAt_attached _ bytes,
      wf_ofBytes 0 bytes, rfl, rfl, rfl, rfl, rfl, rfl⟩
  · exact absurd hlen (Nat.not_le_of_lt hlong)

/-- Settles O24, from the three cases of `Attach`. -/
theorem attachOutOfPlaceIsRefused : Obligations.AttachOutOfPlaceIsRefused := by
  intro s bytes es hev
  rw [step_event s _ es hev, runEvent_attach]
  have hcases := attachBuffer_cases bytes (s.withEvents es)
  rw [withEvents_sessionOpen] at hcases
  rcases hcases with ⟨hopen, h⟩ | ⟨hclosed, hlen, h⟩ | ⟨hclosed, _, h⟩
  · exact ⟨fun _ => h, by simp [hopen]⟩
  · exact ⟨by simp [hclosed], fun _ hlong => absurd hlen (Nat.not_le_of_lt hlong)⟩
  · exact ⟨by simp [hclosed], fun _ _ => h⟩

/-- Settles O25: the host is handed the whole buffer, and then none is attached. -/
theorem detachHandsTheBytesBack : Obligations.DetachHandsTheBytesBack := by
  intro s es hev
  exact ⟨_, s.bufBytes, step_event s .detach es hev, length_rangeBytes s 0 _, holdsAt_bufBytes s,
    rfl, rfl, rfl, rfl, rfl, rfl, rfl, rfl⟩

/-- Settles O26: a step at `Attach` that goes on is an accepted one, and its bytes are the whole buffer. -/
theorem detachAfterAttachReturnsTheBytes : Obligations.DetachAfterAttachReturnsTheBytes := by
  intro s t bytes es hev h
  cases afterEvent_of_step hev h with
  | attach _ _ hlen =>
    refine ⟨_, step_event _ .detach es rfl, ?_, rfl, rfl⟩
    rw [detachBuffer_replies, bufBytes_withEvents, bufBytes_attached _ hlen]
    rfl

/-- Settles O28, by the equations of `step` and `runEvent`. -/
theorem observeReadsTheReport : Obligations.ObserveReadsTheReport :=
  ⟨fun s es hev => (step_event s .observe es hev).trans (runEvent_observe _), step_waiting⟩

/-- Settles O34: the codes are those of the table, and one severity is recoverable. -/
theorem classCodesAndSeverities : Obligations.ClassCodesAndSeverities := by
  refine ⟨rfl, rfl, rfl, rfl, rfl, rfl, rfl, rfl, fun c => ?_⟩
  cases c <;> decide

/-- Settles O57: the reading of a register, with an 8-bit register zero-extended. -/
theorem hostReadsEveryRegister : Obligations.HostReadsEveryRegister := by
  intro s r es hev
  refine ⟨s.registerValue r, (step_event s _ es hev).trans (runEvent_readRegister r _), ?_, ?_, ?_, ?_⟩
  · rintro rfl
    exact registerValue_buflen s
  · rintro rfl
    exact BitVec.toNat_setWidth_of_le (by decide)
  · rintro rfl
    exact BitVec.toNat_setWidth_of_le (by decide)
  · rintro rfl
    exact registerValue_eoff s

end Sys2Proof.Machine

/-! SUPPORT. The family of the hazards: what the success of `CSPUT` and of `STF` says of the state it leaves, and the stored
checksum that a later `STF` into the body makes stale. The lemmas come first, the settled statement last. -/

namespace Sys2Proof.Machine

/-! ### What success says -/

/-- `CSPUT` succeeds only with operands that pass the checks of R79 and R80. -/
theorem checksumOperandsOk_of_csputBy_stat {alg : Alg} {pos start len : Off} {s : State}
    (h : (csputBy alg pos start len s).stat = 0) : checksumOperandsOk s.buflen pos start len := by
  rcases csputBy_cases alg pos start len s with ⟨_, ht⟩ | ⟨hok, _⟩ | ⟨_, _, ht⟩
  · exact absurd (ht ▸ h) (raise_stat_ne_zero s (by decide) _)
  · exact hok
  · exact absurd (ht ▸ h) (raise_stat_ne_zero s (by decide) _)

/-- `STF` succeeds only by storing one byte at `off` and reporting it (`41_bitfield.md` R99). -/
theorem exists_stored_of_exec_stf_stat {off : Off} {sh : Shift} {w : Width} {v : Val} {s u : State}
    (h : exec (.stf off sh w v) s = .next u) (hstat : u.stat = 0) :
    ∃ b, u = (s.memWrite off.toNat b).done b := by
  rcases execStf_cases off sh w v s with ⟨_, hu⟩ | ⟨_, _, hu⟩ | ⟨_, _, _, hu⟩ | ⟨_, _, _, hu⟩ <;>
    cases hu.symm.trans h
  · exact absurd hstat (raise_stat_ne_zero s (by decide) _)
  · exact absurd hstat (raise_stat_ne_zero s (by decide) _)
  · exact absurd hstat (raise_stat_ne_zero s (by decide) _)
  · exact ⟨_, rfl⟩

/-- The report of a store does not touch the buffer, so it may as well come first. -/
theorem memWrite_done (s : State) (o : Nat) (b r : Byte) : (s.memWrite o b).done r = (s.done r).memWrite o b := rfl

/-! ### The statement of the family -/

/-- Settles O44: `CSPUT` leaves the right checksum of the range, and the one byte that `STF` stores changes that range but
not the stored checksum, which a `Sensitive7` algorithm tells apart. -/
theorem storingIntoTheBodyMakesTheChecksumStale : Obligations.StoringIntoTheBodyMakesTheChecksumStale := by
  intro alg halg pos start len off sh w v s u hput hle hlt hstf hstat hchanged
  have hok := checksumOperandsOk_of_csputBy_stat hput
  have hsum := compute_rangeBytes_csputBy alg hok
  rw [← csputBy_buflen alg (pos := pos) (start := start) (len := len)] at hok
  generalize csputBy alg pos start len s = t at hok hsum hstf hchanged
  obtain ⟨b, rfl⟩ := exists_stored_of_exec_stf_stat hstf hstat
  rw [done_buf, memWrite_buf, read_write_self] at hchanged
  obtain ⟨i, hi⟩ := Nat.exists_eq_add_of_le hle
  rw [memWrite_done, hi]
  rw [hi] at hlt hchanged
  exact csverBy_memWrite_of_sensitive7 alg (s := t.done b) halg hok hsum (Nat.lt_of_add_lt_add_left hlt) hchanged

end Sys2Proof.Machine
